-- ==== Sys2Proof/Word.lean ====
section
/-! DEFINITION. The word and byte types (R6, R9). -/

namespace Sys2Proof

/-- A 16-bit word: the unit of registers, memory and instructions (R6). Arithmetic on it is modulo 2^16 (R9). -/
abbrev Word := BitVec 16

/-- A byte of console input or output (R13, R53 (c)). -/
abbrev Byte := BitVec 8

end Sys2Proof
end

