-- ==== Sys2Proof/Config.lean ====
section
/-! DEFINITION. What is fixed for the machine (R6) and the values the spec leaves open (R7). -/

namespace Sys2Proof.Config

/-- The address of the keyboard status register KBSR (R6, R28). -/
def kbsrAddr : Word := 0xFE00

/-- The address of the keyboard data register KBDR (R6, R28). -/
def kbdrAddr : Word := 0xFE02

/-- KBSR_READY, the word a successful poll writes to KBSR (R7, R56, D5). -/
def kbsrReady : Word := 0x8000

/-- The program counter when the execution loop starts (R6, R36). -/
def resetPc : Word := 0x3000

/-- The number of words in memory (R6, R28). -/
def memWords : Nat := 65536

/-- IN_PROMPT: the bytes the IN service writes as its prompt. An OPEN parameter (R7, R195, D13): no body, so nothing
can be proved about its value (log entry 7). -/
opaque inPrompt : List Byte

/-- HALT_MESSAGE: the bytes the HALT service writes. An OPEN parameter (R7, R197, D14): no body (log entry 7). -/
opaque haltMessage : List Byte

/-- INPUT: the bytes the host will supply. Host input (R7, R36, D7): no body (log entry 8). -/
opaque input : List Byte

/-- avail: whether the n-th keyboard poll finds input when some is left. A draw (R7, R30, D7): no body, and applied to
the counter `State.polls` (log entry 6). -/
opaque avail : Nat → Bool

end Sys2Proof.Config
end

