-- ==== Sys2Proof/Syntax.lean ====
section
/-! DEFINITION. The instructions as syntax: registers, opcodes, services and `Instr` (R20, R81, R96, R191). -/

namespace Sys2Proof

/-- The general registers R0 to R7 (R20). -/
inductive Reg where
  | r0 | r1 | r2 | r3 | r4 | r5 | r6 | r7
  deriving DecidableEq, Repr

/-- The sixteen opcodes (R81). -/
inductive Opcode where
  | br | add | ld | st | jsr | and | ldr | str | rti | not | ldi | sti | jmp | res | lea | trap
  deriving DecidableEq, Repr

/-- The six trap services (R191). -/
inductive Service where
  | getc | out | puts | in_ | putsp | halt
  deriving DecidableEq, Repr

/-- The instructions, one constructor per row of spec/opcode_table.json, each carrying its extracted fields (R96).
Immediates and offsets are the raw fields, before sign extension. The last six are the rows that give a trap vector a
name of its own; R96 counts them as forms of `Trap` (log entry 10). -/
inductive Instr where
  /-- ADD, register form (R122). -/
  | addR (dst src1 src2 : Reg)
  /-- ADD, immediate form (R123). -/
  | addI (dst src1 : Reg) (imm5 : BitVec 5)
  /-- AND, register form (R124). -/
  | andR (dst src1 src2 : Reg)
  /-- AND, immediate form (R125). -/
  | andI (dst src1 : Reg) (imm5 : BitVec 5)
  /-- NOT (R126). -/
  | not (dst src : Reg)
  /-- BR; bit 2 of `cond` is n, bit 1 is z, bit 0 is p (R91, R141). -/
  | br (cond : BitVec 3) (pcoffset9 : BitVec 9)
  /-- JMP, and RET when base is R7 (R142). -/
  | jmp (base : Reg)
  /-- JSR (R143). -/
  | jsr (pcoffset11 : BitVec 11)
  /-- JSRR (R144). -/
  | jsrr (base : Reg)
  /-- LD (R161). -/
  | ld (dst : Reg) (pcoffset9 : BitVec 9)
  /-- LDI (R162). -/
  | ldi (dst : Reg) (pcoffset9 : BitVec 9)
  /-- LDR (R163). -/
  | ldr (dst base : Reg) (offset6 : BitVec 6)
  /-- LEA (R164). -/
  | lea (dst : Reg) (pcoffset9 : BitVec 9)
  /-- ST (R165). -/
  | st (src : Reg) (pcoffset9 : BitVec 9)
  /-- STI (R166). -/
  | sti (src : Reg) (pcoffset9 : BitVec 9)
  /-- STR (R167). -/
  | str (src base : Reg) (offset6 : BitVec 6)
  /-- TRAP (R190); the decoder builds it for the vectors that select no service (R198). -/
  | trap (vector : BitVec 8)
  /-- RTI, reserved (R231). -/
  | rti
  /-- RES, reserved (R232). -/
  | res
  /-- TRAP 0x20 (R192). -/
  | getc
  /-- TRAP 0x21 (R193). -/
  | out
  /-- TRAP 0x22 (R194). -/
  | puts
  /-- TRAP 0x23 (R195). -/
  | in_
  /-- TRAP 0x24 (R196). -/
  | putsp
  /-- TRAP 0x25 (R197). -/
  | halt
  deriving DecidableEq, Repr

end Sys2Proof
end

