-- ==== Sys2Proof/Machine/State.lean ====
section
/-! DEFINITION. The machine's state as plain data, the reasons a step stops, and the state at reset (10_state.md). -/

namespace Sys2Proof.Machine

/-- The condition flag: exactly one of three values at all times (R24). -/
inductive Cond where
  | positive | zero | negative
  deriving DecidableEq, Repr

/-- The execution state (R27). Only `running` takes steps, the others are final (R27, R100). -/
inductive RunState where
  /-- The loop takes steps (R97). -/
  | running
  /-- After TRAP 0x25 (R197): the run ended with a success status (R34). -/
  | halted
  /-- After dispatching RTI or RES (R233): a fatal end, carrying the opcode and the address of the reserved word (R241). -/
  | aborted (op : BitVec 4) (addr : Word)
  /-- After an external termination request (R245). -/
  | terminated
  deriving DecidableEq, Repr

/-- Where a trap service stands that has not completed within its TRAP's step: the blocking wait of GETC and IN
(R97, R199, R245, R293), or a string loop that finds no zero word (R194, R196, 93_implementation_defined.md).
The model's own field (log entries 3 and 4). -/
inductive ServiceState where
  /-- No service in progress: the next thing is an instruction boundary. -/
  | idle
  /-- GETC waits in IN_READ (R192, R31). -/
  | getcWait
  /-- IN waits in IN_READ, its prompt emitted (R195, R31). -/
  | inWait
  /-- PUTS walks a memory without a zero word; `p` is its pointer (R194). -/
  | putsLoop (p : Word)
  /-- PUTSP walks a memory without a zero word; `p` is its pointer (R196). -/
  | putspLoop (p : Word)
  deriving DecidableEq, Repr

/-- Memory as (word address, word) pairs, in the canonical form `Memory.wf` of Machine/Ops.lean. An address that is not
listed holds `Memory.unlisted`. The cell is a word, because the addressable unit is one word and byte order inside memory
is unobservable (R50, R53; log entry 1). -/
abbrev Memory := List (Nat × Word)

/-- What an address that is not listed reads as: memory is zero-initialized (R36, R280). -/
def Memory.unlisted : Word := 0

/-- The register file: eight 16-bit general registers (R20). -/
structure Regs where
  r0 : Word
  r1 : Word
  r2 : Word
  r3 : Word
  r4 : Word
  r5 : Word
  r6 : Word
  r7 : Word
  deriving DecidableEq, Repr

/-- The whole state of the block: (x[0..7], pc, cc, mem, run, inq, out) of 10_state.md, KBSR and KBDR being words of mem
(R28), and three fields of the model's own: `service`, `polls` and `termReq`. -/
structure State where
  /-- x[0] to x[7] (R20). -/
  regs : Regs
  /-- The program counter, a word address (R23). -/
  pc : Word
  /-- The condition flag (R24). -/
  cc : Cond
  /-- mem[0] to mem[65535], code, data, KBSR and KBDR (R28, R50). -/
  mem : Memory
  /-- The execution state (R27). -/
  run : RunState
  /-- The input not yet consumed, next byte first (R35 (a)). -/
  inq : List Byte
  /-- The output emitted so far, oldest byte first (R32, R35 (b)). -/
  out : List Byte
  /-- The model's own: a service that has not completed (log entries 3 and 4). -/
  service : ServiceState
  /-- The model's own: how many keyboard polls have been made, which picks the next draw `Config.avail` (log entry 6). -/
  polls : Nat
  /-- The model's own: when the host's TERM_REQ lands. `none` is never, `some n` is the (n+1)-th moment from now at which
  R245 lets it land (log entry 5). -/
  termReq : Option Nat
  deriving DecidableEq, Repr

/-- Why no step is taken: the block is in a final execution state (R27, R100). Raised by `step` alone; no instruction's
meaning answers a fault. -/
inductive Fault where
  /-- Raised by `step` in HALTED: no step exists (R100). It is the successful end of a run (R34), not an error. Safe: the
  machine really stops here. -/
  | halted
  /-- Raised by `step` in ABORTED: the outcome ReservedOpcode(op, addr) (R233, R241, D17). Safe: the machine really stops
  here. -/
  | reservedOpcode (op : BitVec 4) (addr : Word)
  /-- Raised by `step` in TERMINATED: no further instruction executes (R245). Safe: the machine really stops here. -/
  | terminated
  deriving DecidableEq, Repr

/-- Why an instruction has no meaning in the model. -/
inductive Refusal where
  /-- Raised by an arm of `exec` whose instruction has no meaning yet; no arm raises it. Safe: nothing is claimed of it. -/
  | notModelled (mnemonic : String)
  deriving DecidableEq, Repr

/-- The state at the moment the execution loop starts with no image loaded (R36, R280). -/
def State.reset : State where
  regs := ⟨0, 0, 0, 0, 0, 0, 0, 0⟩
  pc := Config.resetPc
  cc := .zero
  mem := []
  run := .running
  inq := Config.input
  out := []
  service := .idle
  polls := 0
  termReq := none

end Sys2Proof.Machine
end

