-- ==== Sys2Proof/Machine/Flags.lean ====
section
/-! DEFINITION. The condition flag: how it is computed from a word and how BR reads it (R24, R25). -/

namespace Sys2Proof.Machine

/-- The flag of a word; the test for zero is made first (R24). -/
def flagOf (v : Word) : Cond :=
  if v = 0 then .zero else if v.getLsbD 15 then .negative else .positive

/-- The 3-bit one-hot code through which BR reads the flag (R25, D2). -/
def Cond.code : Cond → BitVec 3
  | .negative => 0b100
  | .zero => 0b010
  | .positive => 0b001

/-- `setcc(v)`, the source's `update_flags` (R24). -/
def State.setcc (v : Word) (s : State) : State := { s with cc := flagOf v }

/-- Whether a BR with condition field `cond` is taken (R25, R141). -/
def branchTaken (cond : BitVec 3) (c : Cond) : Bool := cond &&& c.code != 0

end Sys2Proof.Machine
end

