-- ==== Sys2Proof/Machine/Ops.lean ====
section
/-! DEFINITION. The named operations over registers, memory and the host's interfaces, the keyboard poll, the fetch, trap
entry and return, and the abort. -/

namespace Sys2Proof.Machine

/-! ### Bytes of a word -/

/-- `zext_16(b)` (R10). -/
def zext16 (b : Byte) : Word := b.setWidth 16

/-- `w[7:0]` (R8). -/
def lowByte (w : Word) : Byte := w.extractLsb' 0 8

/-- `w[15:8]` (R8). -/
def highByte (w : Word) : Byte := w.extractLsb' 8 8

/-! ### Registers -/

/-- The word a register of the file holds (R20). -/
def Regs.get (f : Regs) : Reg → Word
  | .r0 => f.r0 | .r1 => f.r1 | .r2 => f.r2 | .r3 => f.r3
  | .r4 => f.r4 | .r5 => f.r5 | .r6 => f.r6 | .r7 => f.r7

/-- The file with one register replaced (R20). -/
def Regs.set (f : Regs) (r : Reg) (v : Word) : Regs :=
  match r with
  | .r0 => { f with r0 := v } | .r1 => { f with r1 := v } | .r2 => { f with r2 := v } | .r3 => { f with r3 := v }
  | .r4 => { f with r4 := v } | .r5 => { f with r5 := v } | .r6 => { f with r6 := v } | .r7 => { f with r7 := v }

/-- `x[i]` (R11). -/
def State.reg (s : State) (r : Reg) : Word := s.regs.get r

/-- `x[i] <- v` (R11): no register is hardwired (R20). -/
def State.setReg (r : Reg) (v : Word) (s : State) : State := { s with regs := s.regs.set r v }

/-- `pc <- v` (R11). -/
def State.setPc (v : Word) (s : State) : State := { s with pc := v }

/-- `x[dst] <- v; setcc(v)`, the end of every instruction that writes a result register (R21, R26). -/
def State.writeResult (dst : Reg) (v : Word) (s : State) : State := (s.setReg dst v).setcc v

/-! ### Memory -/

/-- The word at an address. -/
def Memory.read : Memory → Nat → Word
  | [], _ => Memory.unlisted
  | c :: m, a => if c.1 = a then c.2 else Memory.read m a

/-- The memory with an address unlisted. -/
def Memory.erase (m : Memory) (a : Nat) : Memory := m.filter (fun c => c.1 != a)

/-- The memory with a cell put in at its place. -/
def Memory.insert : Memory → Nat → Word → Memory
  | [], a, v => [(a, v)]
  | c :: m, a, v =>
    if a < c.1 then (a, v) :: c :: m else if a = c.1 then (a, v) :: m else c :: Memory.insert m a v

/-- The memory after a write, in canonical form: writing what an unlisted address reads as unlists the address. -/
def Memory.write (m : Memory) (a : Nat) (v : Word) : Memory :=
  if v = Memory.unlisted then m.erase a else m.insert a v

/-- The canonical form: addresses strictly rising and inside the address space, no cell equal to what an unlisted address
reads as. -/
abbrev Memory.wf (m : Memory) : Prop :=
  m.Pairwise (fun c d => c.1 < d.1) ∧ ∀ c ∈ m, c.1 < Config.memWords ∧ c.2 ≠ Memory.unlisted

/-- `MemPeek(a)`: the stored word, no side effect even at KBSR (R12, R59). -/
def State.peek (s : State) (a : Word) : Word := s.mem.read a.toNat

/-- `MemWrite(a, 1, v)`: a plain store at every address, KBSR and KBDR included (R57). -/
def State.memWrite (a v : Word) (s : State) : State := { s with mem := s.mem.write a.toNat v }

/-! ### Host interfaces -/

/-- IN_POLL (R30): `none`, or the head of inq, then consumed. The draw `Config.avail` decides while inq is non-empty, an
empty inq forces `none`. Each poll moves on to the next draw. -/
def State.inPoll (s : State) : Option Byte × State :=
  match s.inq with
  | [] => (none, { s with polls := s.polls + 1 })
  | b :: rest =>
    if Config.avail s.polls then (some b, { s with inq := rest, polls := s.polls + 1 })
    else (none, { s with polls := s.polls + 1 })

/-- IN_READ when it returns (R31): the head of inq, consumed; `none` while the request has to wait. -/
def State.inRead (s : State) : Option (Byte × State) :=
  match s.inq with
  | [] => none
  | b :: rest => some (b, { s with inq := rest })

/-- `Emit` of each byte of a list in turn (R13, R32). -/
def State.emit (bs : List Byte) (s : State) : State := { s with out := s.out ++ bs }

/-- `Flush()`: changes nothing in out (R32, D19). -/
def State.flush (s : State) : State := s

/-! ### Reads with the keyboard poll -/

/-- `KbPoll()` (R56). -/
def State.kbPoll (s : State) : State :=
  match s.inPoll with
  | (some b, t) => (t.memWrite Config.kbsrAddr Config.kbsrReady).memWrite Config.kbdrAddr (zext16 b)
  | (none, t) => t.memWrite Config.kbsrAddr 0

/-- What a `MemRead` of an address leaves behind: a read of KBSR polls the keyboard, every other read has no side effect
(R55, R58, R64). -/
def State.afterRead (a : Word) (s : State) : State := if a = Config.kbsrAddr then s.kbPoll else s

/-- `MemRead(a, 1)`: the word at the address after any poll, and the state the read leaves (R55). -/
def State.memRead (a : Word) (s : State) : Word × State := ((s.afterRead a).peek a, s.afterRead a)

/-- `ir <- MemRead(pc, 1); pc <- pc + 1`: the fetch and the fetch increment (R97, R98, R99). -/
def State.fetch (s : State) : Word × State :=
  let r := s.memRead s.pc
  (r.1, r.2.setPc (s.pc + 1))

/-! ### External termination -/

/-- Whether the host's TERM_REQ lands at this moment (R245). -/
def State.termDue (s : State) : Bool := s.termReq == some 0

/-- The state one moment nearer to the host's TERM_REQ. -/
def State.tick (s : State) : State := { s with termReq := s.termReq.map (· - 1) }

/-- TERM_REQ's effect: run <- TERMINATED and nothing else (R245). -/
def State.terminate (s : State) : State := { s with run := .terminated }

/-! ### Taking an exception, and returning from one -/

/-- Trap entry: saves exactly one thing, x[7] <- pc, with pc the address of the word after the TRAP; it changes neither pc
nor cc (R190, R247). Control goes to the built-in service that the vector selects (R199). -/
def State.trapEntry (s : State) : State := s.setReg .r7 s.pc

/-- Trap return: the service is over, nothing is restored and execution goes on at pc (R200, R248). -/
def State.trapReturn (s : State) : State := { s with service := .idle }

/-- `raise ReservedOpcode(op)`: run <- ABORTED and nothing else, with the address of the reserved word, pc - 1
(R233, R241). -/
def State.abort (op : BitVec 4) (s : State) : State := { s with run := .aborted op (s.pc - 1) }

end Sys2Proof.Machine
end

