-- ==== Sys2Proof/Machine/Operands.lean ====
section
/-! DEFINITION. Immediate operands and effective addresses (R10, R84 to R87, R160). -/

namespace Sys2Proof.Machine

/-- `sext_N(v)` of an N-bit field: bit N-1 is copied into the bits above (R10). -/
def sext {n : Nat} (v : BitVec n) : Word := v.signExtend 16

/-- imm5 = sext_5(instr[4:0]) (R84). -/
def imm5Value (i : BitVec 5) : Word := sext i

/-- The PC-relative address `pc + sext_9(instr[8:0])`, pc being the incremented pc (R86, R160). -/
def State.pcRel9 (s : State) (o : BitVec 9) : Word := s.pc + sext o

/-- JSR's target `pc + sext_11(instr[10:0])` (R87, R143). -/
def State.pcRel11 (s : State) (o : BitVec 11) : Word := s.pc + sext o

/-- The base plus offset address `x[base] + sext_6(instr[5:0])` (R85, R160). -/
def State.baseOff6 (s : State) (b : Reg) (o : BitVec 6) : Word := s.reg b + sext o

/-- The indirect address: the pointer word at the PC-relative address, read with MemRead, and the state that read leaves
(R160). -/
def State.indirect9 (s : State) (o : BitVec 9) : Word × State := s.memRead (s.pcRel9 o)

end Sys2Proof.Machine
end

