-- ==== Sys2Proof/Machine/Alu.lean ====
section
/-! DEFINITION. The operate instructions ADD, AND and NOT (40_operate.md). -/

namespace Sys2Proof.Machine

/-- ADD, register form: both sources are read before dst is written, the sum is modulo 2^16 (R120, R122). -/
def execAddR (dst src1 src2 : Reg) (s : State) : Host.Outcome State Fault Refusal :=
  .next (s.writeResult dst (s.reg src1 + s.reg src2))

/-- ADD, immediate form (R123). -/
def execAddI (dst src1 : Reg) (imm5 : BitVec 5) (s : State) : Host.Outcome State Fault Refusal :=
  .next (s.writeResult dst (s.reg src1 + imm5Value imm5))

/-- AND, register form (R124). -/
def execAndR (dst src1 src2 : Reg) (s : State) : Host.Outcome State Fault Refusal :=
  .next (s.writeResult dst (s.reg src1 &&& s.reg src2))

/-- AND, immediate form (R125). -/
def execAndI (dst src1 : Reg) (imm5 : BitVec 5) (s : State) : Host.Outcome State Fault Refusal :=
  .next (s.writeResult dst (s.reg src1 &&& imm5Value imm5))

/-- NOT (R126). -/
def execNot (dst src : Reg) (s : State) : Host.Outcome State Fault Refusal :=
  .next (s.writeResult dst (~~~ s.reg src))

end Sys2Proof.Machine
end

