-- ==== Sys2Proof/Machine/Control.lean ====
section
/-! DEFINITION. Control transfer: BR, JMP, JSR and JSRR (41_control.md). `pc` is the incremented pc. -/

namespace Sys2Proof.Machine

/-- BR: reads cc, writes pc when taken and nothing else (R141). -/
def execBr (cond : BitVec 3) (pcoffset9 : BitVec 9) (s : State) : Host.Outcome State Fault Refusal :=
  .next (if branchTaken cond s.cc then s.setPc (s.pcRel9 pcoffset9) else s)

/-- JMP and RET (R142). -/
def execJmp (base : Reg) (s : State) : Host.Outcome State Fault Refusal :=
  .next (s.setPc (s.reg base))

/-- JSR: R7 gets the incremented pc, then pc moves by the offset; cc is untouched (R143, C1, C2). -/
def execJsr (pcoffset11 : BitVec 11) (s : State) : Host.Outcome State Fault Refusal :=
  .next ((s.setReg .r7 s.pc).setPc (s.pcRel11 pcoffset11))

/-- JSRR: R7 is written first and x[base] is read after it, so with base R7 the new R7 is the target (R144, D15). -/
def execJsrr (base : Reg) (s : State) : Host.Outcome State Fault Refusal :=
  let t := s.setReg .r7 s.pc
  .next (t.setPc (t.reg base))

end Sys2Proof.Machine
end

