-- ==== Sys2Proof/Machine/LoadStore.lean ====
section
/-! DEFINITION. Loads, stores and address computation (42_load_store.md). `pc` is the incremented pc; a MemRead of KBSR
polls the keyboard wherever in an instruction it happens. -/

namespace Sys2Proof.Machine

/-- LD (R161). -/
def execLd (dst : Reg) (pcoffset9 : BitVec 9) (s : State) : Host.Outcome State Fault Refusal :=
  let r := s.memRead (s.pcRel9 pcoffset9)
  .next (r.2.writeResult dst r.1)

/-- LDI: the pointer is read first, then the data, both with MemRead (R162). -/
def execLdi (dst : Reg) (pcoffset9 : BitVec 9) (s : State) : Host.Outcome State Fault Refusal :=
  let p := s.indirect9 pcoffset9
  let r := p.2.memRead p.1
  .next (r.2.writeResult dst r.1)

/-- LDR: the address is formed from the old base register (R163). -/
def execLdr (dst base : Reg) (offset6 : BitVec 6) (s : State) : Host.Outcome State Fault Refusal :=
  let r := s.memRead (s.baseOff6 base offset6)
  .next (r.2.writeResult dst r.1)

/-- LEA: no memory access, so no poll; it sets the flag (R164). -/
def execLea (dst : Reg) (pcoffset9 : BitVec 9) (s : State) : Host.Outcome State Fault Refusal :=
  .next (s.writeResult dst (s.pcRel9 pcoffset9))

/-- ST (R165). -/
def execSt (src : Reg) (pcoffset9 : BitVec 9) (s : State) : Host.Outcome State Fault Refusal :=
  .next (s.memWrite (s.pcRel9 pcoffset9) (s.reg src))

/-- STI: the pointer read is a MemRead and may poll (R166). -/
def execSti (src : Reg) (pcoffset9 : BitVec 9) (s : State) : Host.Outcome State Fault Refusal :=
  let p := s.indirect9 pcoffset9
  .next (p.2.memWrite p.1 (s.reg src))

/-- STR: stores the register's value, never its index (R167, C3). -/
def execStr (src base : Reg) (offset6 : BitVec 6) (s : State) : Host.Outcome State Fault Refusal :=
  .next (s.memWrite (s.baseOff6 base offset6) (s.reg src))

end Sys2Proof.Machine
end

