-- ==== Sys2Proof/Machine/Reserved.lean ====
section
/-! DEFINITION. The reserved opcodes RTI and RES (44_reserved.md). -/

namespace Sys2Proof.Machine

/-- RTI: `raise ReservedOpcode(8)`. It is no return from a trap (R231, R233). -/
def execRti (s : State) : Host.Outcome State Fault Refusal := .next (s.abort 8)

/-- RES: `raise ReservedOpcode(13)` (R232, R233). -/
def execRes (s : State) : Host.Outcome State Fault Refusal := .next (s.abort 13)

end Sys2Proof.Machine
end

