-- ==== Sys2Proof/WellFormed.lean ====
section
/-! DEFINITION. The instructions that are the decoding of some word. -/

namespace Sys2Proof

/-- The vectors that select one of the six services: 0x20 to 0x25 (R94, R191). -/
def isServiceVector (v : BitVec 8) : Bool := 0x20#8 ≤ v && v ≤ 0x25#8

/-- Every field is as wide as its place in the word, so the one check left is that `trap` holds a vector without a
constructor of its own (log entry 10). -/
def Instr.wellFormed : Instr → Bool
  | .trap v => !isServiceVector v
  | .addR _ _ _ | .addI _ _ _ | .andR _ _ _ | .andI _ _ _ | .not _ _ | .br _ _ | .jmp _ | .jsr _ | .jsrr _
  | .ld _ _ | .ldi _ _ | .ldr _ _ _ | .lea _ _ | .st _ _ | .sti _ _ | .str _ _ _ | .rti | .res
  | .getc | .out | .puts | .in_ | .putsp | .halt => true

/-- An instruction that some word decodes to. -/
abbrev Instr.WellFormed (i : Instr) : Prop := i.wellFormed = true

end Sys2Proof
end

