-- ==== Sys2Proof/Decode.lean ====
section
/-! DEFINITION. The decoder, total on words (R81 to R96), and an encoder beside it. -/

namespace Sys2Proof

/-! ### Fields -/

/-- `v[lo+len-1 : lo]`, the field of `len` bits from bit `lo` up (R8). -/
def bits (w : Word) (lo len : Nat) : BitVec len := w.extractLsb' lo len

/-- The register a 3-bit index names (R20, R83). -/
def Reg.ofBits (b : BitVec 3) : Reg :=
  match b.getLsbD 2, b.getLsbD 1, b.getLsbD 0 with
  | false, false, false => .r0
  | false, false, true => .r1
  | false, true, false => .r2
  | false, true, true => .r3
  | true, false, false => .r4
  | true, false, true => .r5
  | true, true, false => .r6
  | true, true, true => .r7

/-- The 3-bit index of a register (R20, R83). -/
def Reg.toBits : Reg → BitVec 3
  | .r0 => 0 | .r1 => 1 | .r2 => 2 | .r3 => 3 | .r4 => 4 | .r5 => 5 | .r6 => 6 | .r7 => 7

/-- The opcode map, read from its binary column (R81, D1). -/
def Opcode.ofBits (b : BitVec 4) : Opcode :=
  match b.getLsbD 3, b.getLsbD 2, b.getLsbD 1, b.getLsbD 0 with
  | false, false, false, false => .br
  | false, false, false, true => .add
  | false, false, true, false => .ld
  | false, false, true, true => .st
  | false, true, false, false => .jsr
  | false, true, false, true => .and
  | false, true, true, false => .ldr
  | false, true, true, true => .str
  | true, false, false, false => .rti
  | true, false, false, true => .not
  | true, false, true, false => .ldi
  | true, false, true, true => .sti
  | true, true, false, false => .jmp
  | true, true, false, true => .res
  | true, true, true, false => .lea
  | true, true, true, true => .trap

/-- The opcode map, read from its decimal column (R81, D1). -/
def Opcode.toBits : Opcode → BitVec 4
  | .br => 0 | .add => 1 | .ld => 2 | .st => 3 | .jsr => 4 | .and => 5 | .ldr => 6 | .str => 7
  | .rti => 8 | .not => 9 | .ldi => 10 | .sti => 11 | .jmp => 12 | .res => 13 | .lea => 14 | .trap => 15

/-- dst = instr[11:9] (R83). -/
def fieldDst (w : Word) : Reg := .ofBits (bits w 9 3)

/-- The register in instr[8:6]: src1, NOT's src, or base (R83). -/
def fieldMid (w : Word) : Reg := .ofBits (bits w 6 3)

/-- src2 = instr[2:0] (R83). -/
def fieldSrc2 (w : Word) : Reg := .ofBits (bits w 0 3)

/-- The service a trap vector selects; none for the other 250 vectors (R191, R94). -/
def serviceOf (v : BitVec 8) : Option Service :=
  if v = 0x20 then some .getc
  else if v = 0x21 then some .out
  else if v = 0x22 then some .puts
  else if v = 0x23 then some .in_
  else if v = 0x24 then some .putsp
  else if v = 0x25 then some .halt
  else none

/-- The constructor that a TRAP word's vector gets: a service row's own, else `trap` (R190, R191, log entry 10). -/
def decodeTrap (v : BitVec 8) : Instr :=
  match serviceOf v with
  | some .getc => .getc
  | some .out => .out
  | some .puts => .puts
  | some .in_ => .in_
  | some .putsp => .putsp
  | some .halt => .halt
  | none => .trap v

/-! ### The decoder -/

/-- `decode(instr)`: total, and the bits a layout does not name are not read (R82, R92, R95, R96). -/
def decode (w : Word) : Instr :=
  match Opcode.ofBits (bits w 12 4) with
  | .br => .br (bits w 9 3) (bits w 0 9)
  | .add => if bits w 5 1 = 1#1 then .addI (fieldDst w) (fieldMid w) (bits w 0 5) else .addR (fieldDst w) (fieldMid w) (fieldSrc2 w)
  | .ld => .ld (fieldDst w) (bits w 0 9)
  | .st => .st (fieldDst w) (bits w 0 9)
  | .jsr => if bits w 11 1 = 1#1 then .jsr (bits w 0 11) else .jsrr (fieldMid w)
  | .and => if bits w 5 1 = 1#1 then .andI (fieldDst w) (fieldMid w) (bits w 0 5) else .andR (fieldDst w) (fieldMid w) (fieldSrc2 w)
  | .ldr => .ldr (fieldDst w) (fieldMid w) (bits w 0 6)
  | .str => .str (fieldDst w) (fieldMid w) (bits w 0 6)
  | .rti => .rti
  | .not => .not (fieldDst w) (fieldMid w)
  | .ldi => .ldi (fieldDst w) (bits w 0 9)
  | .sti => .sti (fieldDst w) (bits w 0 9)
  | .jmp => .jmp (fieldMid w)
  | .res => .res
  | .lea => .lea (fieldDst w) (bits w 0 9)
  | .trap => decodeTrap (bits w 0 8)

/-- The word of a table row: its low `nbits` bits, every bit above them 0. -/
def tableWord (nbits w : Nat) : Word := BitVec.ofNat 16 (w % 2 ^ nbits)

/-- The instruction the decoder reads from a table row's bits. An instruction is exactly one 16-bit word (R80, R104), so
a row of more bits has none. -/
def decodeTableWord (nbits w : Nat) : Option Instr :=
  if nbits ≤ 16 then some (decode (tableWord nbits w)) else none

/-! ### The encoder -/

/-- A field put at its place in a word: its bit 0 at bit `lo` (R8, R82). -/
def place {n : Nat} (lo : Nat) (v : BitVec n) : Word := v.setWidth 16 <<< lo

/-- The opcode field, instr[15:12] (R80, R81). -/
def placeOp (o : Opcode) : Word := place 12 o.toBits

/-- A register in instr[11:9] (R82, R83). -/
def placeHigh (r : Reg) : Word := place 9 r.toBits

/-- A register in instr[8:6] (R82, R83). -/
def placeMid (r : Reg) : Word := place 6 r.toBits

/-- A TRAP word with instr[11:8] = 0 (R82). -/
def encodeTrap (v : BitVec 8) : Word := placeOp .trap ||| place 0 v

/-- The word of an instruction, from the layouts of R82. The bits no instruction reads are written as R92 says standard
LC-3 writes them: NOT's instr[5:0] all ones, the others 0 (log entry 11). -/
def encode : Instr → Word
  | .addR d a b => placeOp .add ||| placeHigh d ||| placeMid a ||| place 5 0#1 ||| place 3 0#2 ||| place 0 b.toBits
  | .addI d a i => placeOp .add ||| placeHigh d ||| placeMid a ||| place 5 1#1 ||| place 0 i
  | .andR d a b => placeOp .and ||| placeHigh d ||| placeMid a ||| place 5 0#1 ||| place 3 0#2 ||| place 0 b.toBits
  | .andI d a i => placeOp .and ||| placeHigh d ||| placeMid a ||| place 5 1#1 ||| place 0 i
  | .not d a => placeOp .not ||| placeHigh d ||| placeMid a ||| place 0 0x3F#6
  | .br c o => placeOp .br ||| place 9 c ||| place 0 o
  | .jmp b => placeOp .jmp ||| place 9 0#3 ||| placeMid b ||| place 0 0#6
  | .jsr o => placeOp .jsr ||| place 11 1#1 ||| place 0 o
  | .jsrr b => placeOp .jsr ||| place 11 0#1 ||| place 9 0#2 ||| placeMid b ||| place 0 0#6
  | .ld d o => placeOp .ld ||| placeHigh d ||| place 0 o
  | .ldi d o => placeOp .ldi ||| placeHigh d ||| place 0 o
  | .ldr d b o => placeOp .ldr ||| placeHigh d ||| placeMid b ||| place 0 o
  | .lea d o => placeOp .lea ||| placeHigh d ||| place 0 o
  | .st r o => placeOp .st ||| placeHigh r ||| place 0 o
  | .sti r o => placeOp .sti ||| placeHigh r ||| place 0 o
  | .str r b o => placeOp .str ||| placeHigh r ||| placeMid b ||| place 0 o
  | .trap v => encodeTrap v
  | .rti => placeOp .rti ||| place 0 0#12
  | .res => placeOp .res ||| place 0 0#12
  | .getc => encodeTrap 0x20
  | .out => encodeTrap 0x21
  | .puts => encodeTrap 0x22
  | .in_ => encodeTrap 0x23
  | .putsp => encodeTrap 0x24
  | .halt => encodeTrap 0x25

/-- The opcode of an instruction (R81); the six service rows are TRAP words (R191). -/
def Instr.opcode : Instr → Opcode
  | .addR _ _ _ | .addI _ _ _ => .add
  | .andR _ _ _ | .andI _ _ _ => .and
  | .not _ _ => .not
  | .br _ _ => .br
  | .jmp _ => .jmp
  | .jsr _ | .jsrr _ => .jsr
  | .ld _ _ => .ld
  | .ldi _ _ => .ldi
  | .ldr _ _ _ => .ldr
  | .lea _ _ => .lea
  | .st _ _ => .st
  | .sti _ _ => .sti
  | .str _ _ _ => .str
  | .rti => .rti
  | .res => .res
  | .trap _ | .getc | .out | .puts | .in_ | .putsp | .halt => .trap

end Sys2Proof
end

