-- ==== Sys2Proof/Machine/Trap.lean ====
section
/-! DEFINITION. TRAP, its dispatcher and the six built-in services (43_trap.md), and how a service that has not completed
goes on. -/

namespace Sys2Proof.Machine

/-! ### Strings in memory -/

/-- The bytes PUTS emits for a word: bits 7:0 (R194, D11). -/
def putsBytes (w : Word) : List Byte := [lowByte w]

/-- The bytes PUTSP emits for a word: the low byte always, then the high byte if it is not zero (R196). -/
def putspBytes (w : Word) : List Byte := if highByte w = 0 then [lowByte w] else [lowByte w, highByte w]

/-- The bytes of the string at `p`: word after word, `p` wrapping, up to the first zero word (R62, R194, R196). `none` if
none of the next `fuel` words is zero. The reads are MemPeek (R59, D10). -/
def walkString (bytesOf : Word → List Byte) (s : State) : Nat → Word → Option (List Byte)
  | 0, _ => none
  | fuel + 1, p =>
    if s.peek p = 0 then some [] else (walkString bytesOf s fuel (p + 1)).map (bytesOf (s.peek p) ++ ·)

/-- The whole string at `p`: if `memWords` words in a row are not zero, no word of memory is. -/
def wholeString (bytesOf : Word → List Byte) (s : State) (p : Word) : Option (List Byte) :=
  walkString bytesOf s Config.memWords p

/-- One turn of a string loop: emit the word at `p` and move on, or end at a zero word (R194, R196). -/
def stringTurn (bytesOf : Word → List Byte) (again : Word → ServiceState) (p : Word) (s : State) : State :=
  if s.peek p = 0 then s.flush.trapReturn
  else { s.emit (bytesOf (s.peek p)) with service := again (p + 1) }

/-! ### The services, after trap entry -/

/-- What GETC does with its byte (R192, D12). -/
def State.acceptChar (b : Byte) (s : State) : State := s.writeResult .r0 (zext16 b)

/-- GETC from its IN_READ on: no echo; it waits while inq is empty (R192, R31). -/
def serviceGetc (s : State) : State :=
  match s.inRead with
  | none => { s with service := .getcWait }
  | some (b, t) => (t.acceptChar b).trapReturn

/-- OUT: emits x[0][7:0] (R193). -/
def serviceOut (s : State) : State := (s.emit [lowByte (s.reg .r0)]).flush

/-- PUTS: one character per word. Without a zero word in memory the loop never ends (R194). -/
def servicePuts (s : State) : State :=
  match wholeString putsBytes s (s.reg .r0) with
  | some bs => (s.emit bs).flush
  | none => { s with service := .putsLoop (s.reg .r0) }

/-- IN from its IN_READ on: the character is emitted once (R195, C8); it waits while inq is empty (R31). -/
def serviceInRead (s : State) : State :=
  match s.inRead with
  | none => { s with service := .inWait }
  | some (b, t) => ((t.emit [b]).acceptChar b).flush.trapReturn

/-- IN: the prompt, then the read with echo (R195). -/
def serviceIn (s : State) : State := serviceInRead (s.emit Config.inPrompt)

/-- PUTSP: two characters per word. Without a zero word in memory the loop never ends (R196). -/
def servicePutsp (s : State) : State :=
  match wholeString putspBytes s (s.reg .r0) with
  | some bs => (s.emit bs).flush
  | none => { s with service := .putspLoop (s.reg .r0) }

/-- HALT: the halt message, then run <- HALTED (R197). -/
def serviceHalt (s : State) : State := { (s.emit Config.haltMessage).flush with run := .halted }

/-- The trap dispatcher: an unknown vector does nothing (R191, R198). -/
def runService (v : BitVec 8) (s : State) : State :=
  match serviceOf v with
  | some .getc => serviceGetc s
  | some .out => serviceOut s
  | some .puts => servicePuts s
  | some .in_ => serviceIn s
  | some .putsp => servicePutsp s
  | some .halt => serviceHalt s
  | none => s

/-! ### The instructions -/

/-- TRAP: `x[7] <- pc; service(vector)`, for every vector (R190). -/
def execTrap (vector : BitVec 8) (s : State) : Host.Outcome State Fault Refusal :=
  .next (runService vector s.trapEntry)

/-- TRAP 0x20 (R190, R192). -/
def execGetc (s : State) : Host.Outcome State Fault Refusal := .next (serviceGetc s.trapEntry)

/-- TRAP 0x21 (R190, R193). -/
def execOut (s : State) : Host.Outcome State Fault Refusal := .next (serviceOut s.trapEntry)

/-- TRAP 0x22 (R190, R194). -/
def execPuts (s : State) : Host.Outcome State Fault Refusal := .next (servicePuts s.trapEntry)

/-- TRAP 0x23 (R190, R195). -/
def execIn (s : State) : Host.Outcome State Fault Refusal := .next (serviceIn s.trapEntry)

/-- TRAP 0x24 (R190, R196). -/
def execPutsp (s : State) : Host.Outcome State Fault Refusal := .next (servicePutsp s.trapEntry)

/-- TRAP 0x25 (R190, R197). -/
def execHalt (s : State) : Host.Outcome State Fault Refusal := .next (serviceHalt s.trapEntry)

/-! ### A service that has not completed -/

/-- A waiting GETC or IN at one moment of its wait: TERM_REQ ends it with nothing more done, else the read goes on if there
is a byte, else it waits on (R31, R245, R293). -/
def waitTurn (readOn : State → State) (s : State) : State :=
  if s.termDue then s.terminate else readOn s.tick

/-- One turn of a service that has not completed. A string loop offers TERM_REQ no moment: it is inside an instruction and
not in IN_READ (R245). -/
def serviceTurn (s : State) : State :=
  match s.service with
  | .idle => s
  | .getcWait => waitTurn serviceGetc s
  | .inWait => waitTurn serviceInRead s
  | .putsLoop p => stringTurn putsBytes .putsLoop p s
  | .putspLoop p => stringTurn putspBytes .putspLoop p s

end Sys2Proof.Machine
end

