-- ==== Sys2Proof/Machine/Dispatch.lean ====
section
/-! DEFINITION. `execute(d)`: one arm per decoded form (R97). The state is the one after the fetch increment. -/

namespace Sys2Proof.Machine

def exec (i : Instr) (s : State) : Host.Outcome State Fault Refusal :=
  match i with
  | .addR dst src1 src2 => Sys2Proof.Machine.execAddR dst src1 src2 s
  | .addI dst src1 imm5 => Sys2Proof.Machine.execAddI dst src1 imm5 s
  | .andR dst src1 src2 => Sys2Proof.Machine.execAndR dst src1 src2 s
  | .andI dst src1 imm5 => Sys2Proof.Machine.execAndI dst src1 imm5 s
  | .not dst src => Sys2Proof.Machine.execNot dst src s
  | .br cond pcoffset9 => Sys2Proof.Machine.execBr cond pcoffset9 s
  | .jmp base => Sys2Proof.Machine.execJmp base s
  | .jsr pcoffset11 => Sys2Proof.Machine.execJsr pcoffset11 s
  | .jsrr base => Sys2Proof.Machine.execJsrr base s
  | .ld dst pcoffset9 => Sys2Proof.Machine.execLd dst pcoffset9 s
  | .ldi dst pcoffset9 => Sys2Proof.Machine.execLdi dst pcoffset9 s
  | .ldr dst base offset6 => Sys2Proof.Machine.execLdr dst base offset6 s
  | .lea dst pcoffset9 => Sys2Proof.Machine.execLea dst pcoffset9 s
  | .st src pcoffset9 => Sys2Proof.Machine.execSt src pcoffset9 s
  | .sti src pcoffset9 => Sys2Proof.Machine.execSti src pcoffset9 s
  | .str src base offset6 => Sys2Proof.Machine.execStr src base offset6 s
  | .trap vector => Sys2Proof.Machine.execTrap vector s
  | .rti => Sys2Proof.Machine.execRti s
  | .res => Sys2Proof.Machine.execRes s
  | .getc => Sys2Proof.Machine.execGetc s
  | .out => Sys2Proof.Machine.execOut s
  | .puts => Sys2Proof.Machine.execPuts s
  | .in_ => Sys2Proof.Machine.execIn s
  | .putsp => Sys2Proof.Machine.execPutsp s
  | .halt => Sys2Proof.Machine.execHalt s

end Sys2Proof.Machine
end

