-- ==== Sys2Proof/Machine/Step.lean ====
section
/-! DEFINITION. One step of the execution loop (R97), and where it takes its next instruction from. -/

namespace Sys2Proof.Machine

/-- `step()` without the test of run: fetch, increment, decode, execute (R97). -/
def runInstr (s : State) : Host.Outcome State Fault Refusal :=
  let f := s.fetch
  exec (decode f.1) f.2

/-- One step. RUNNING alone takes steps (R27, R100): at an instruction boundary TERM_REQ, if it lands there, and else one
instruction (R97, R245, R246); within a service that has not completed, one turn of it. A final execution state stops with
a fault that names it. -/
def step (s : State) : Host.Outcome State Fault Refusal :=
  match s.run with
  | .running =>
    match s.service with
    | .idle => if s.termDue then .next s.terminate else runInstr s.tick
    | .getcWait | .inWait | .putsLoop _ | .putspLoop _ => .next (serviceTurn s)
  | .halted => .fault .halted
  | .aborted op addr => .fault (.reservedOpcode op addr)
  | .terminated => .fault .terminated

/-- The state with a table row's word where `step` fetches its next instruction, at pc. So that the very next step runs it,
the block is RUNNING at an instruction boundary where no TERM_REQ lands, and a pc at KBSR, where the fetch's own poll would
overwrite the word (R98), moves to the initial pc (log entry 9). -/
def State.withFetchWord (s : State) (nbits w : Nat) : State :=
  let pc := if s.pc = Config.kbsrAddr then Config.resetPc else s.pc
  { s.memWrite pc (tableWord nbits w) with
    pc := pc
    run := .running
    service := .idle
    termReq := if s.termDue then none else s.termReq }

end Sys2Proof.Machine
end

