-- ==== Sys2Proof/Machine/HostPort.lean ====
section
/-! DEFINITION. What the host does to the block around a run: LOAD and the image loader's effect on memory, boot, STATUS and
TERM_REQ (R33, R34, R245, R280 to R288). `step` uses none of it. -/

namespace Sys2Proof.Machine

/-- LOAD: `load(a, w)` sets mem[a] <- w, before execution begins (R33). -/
def State.load (a w : Word) (s : State) : State := s.memWrite a w

/-- The body of an image from an address on: big-endian words at rising addresses, until no whole word is left or the
address space is exhausted; no wrap (R281, R283, D21). -/
def loadBody : List Byte → Nat → State → State
  | hi :: lo :: rest, a, s => if a < Config.memWords then loadBody rest (a + 1) (s.load (BitVec.ofNat 16 a) (hi ++ lo)) else s
  | _, _, s => s

/-- One image: the first word is the origin and is not loaded itself; fewer than 2 bytes load nothing (R281, R283). -/
def loadImage (bytes : List Byte) (s : State) : State :=
  match bytes with
  | hi :: lo :: body => loadBody body (hi ++ lo : Word).toNat s
  | _ => s

/-- The images in argument order; a later one may overwrite an earlier one (R282). -/
def loadImages (images : List (List Byte)) (s : State) : State := images.foldl (fun t i => loadImage i t) s

/-- The state in which the loop starts, given each argument's bytes, `none` for an image that fails to load. With no
argument, or with one that fails, the core is not started (R280, R284). -/
def boot (args : List (Option (List Byte))) : Option State :=
  if args = [] then none else (args.mapM id).map (fun images => loadImages images State.reset)

/-- TERM_REQ: the host asks for termination at the (n+1)-th moment from now at which R245 lets it land. -/
def State.requestTermination (n : Nat) (s : State) : State := { s with termReq := some n }

/-- How the host's process ends (R34, R288). -/
inductive ExitStatus where
  /-- HALTED: a success status (R34). -/
  | success
  /-- ABORTED: the process aborts immediately, without the success status (R233). -/
  | abort
  /-- TERMINATED: ended by the host's own request (R245). -/
  | terminated
  deriving DecidableEq, Repr

/-- STATUS: what the execution state reports to the host; nothing while RUNNING (R34). -/
def State.exitStatus (s : State) : Option ExitStatus :=
  match s.run with
  | .running => none
  | .halted => some .success
  | .aborted _ _ => some .abort
  | .terminated => some .terminated

end Sys2Proof.Machine
end

