-- ==== Sys2Proof/Safety.lean ====
section
/-! DEFINITION. Runs, their ends, and the invariant that every step keeps. -/

namespace Sys2Proof.Machine

/-- A run of zero or more steps, all of them to a next state. -/
inductive Reaches : State → State → Prop where
  | refl (s : State) : Reaches s s
  | tail {s t u : State} : Reaches s t → step t = .next u → Reaches s u

/-- The successful end of a run is HALTED alone (R34). -/
abbrev State.Succeeded (s : State) : Prop := s.run = .halted

/-- A run is safe while it has not aborted: ABORTED is a fault, never a success (R233, D17). -/
abbrev State.Safe (s : State) : Prop := ∀ op addr, s.run ≠ .aborted op addr

/-- What holds at reset and is kept by every step. -/
structure State.Inv (s : State) : Prop where
  /-- Memory is in canonical form, so its cells are in range (R50). -/
  mem_wf : s.mem.wf
  /-- A service that has not completed, and HALTED, follow the TRAP's link: x[7] is pc (R190, R197, R245). -/
  linked : s.service ≠ .idle ∨ s.run = .halted → s.reg .r7 = s.pc
  /-- An abort names a reserved opcode and the address before pc (R233, R241). -/
  abort_site : ∀ op addr, s.run = .aborted op addr → (op = 8 ∨ op = 13) ∧ s.pc = addr + 1
  /-- A string loop that does not end walks a memory without a zero word (R194, R196). -/
  loop_endless : ∀ p, s.service = .putsLoop p ∨ s.service = .putspLoop p → ∀ a, s.peek a ≠ 0
  /-- A service is only ever left unfinished by TERM_REQ, and only from a wait (R245). -/
  service_run : s.service ≠ .idle → s.run = .running ∨ s.run = .terminated ∧ (s.service = .getcWait ∨ s.service = .inWait)

end Sys2Proof.Machine
end

