-- ==== Sys2Proof/Certificates/Slice0/Obligations.lean ====
section
/-! DEFINITION. The statements for the provers, made from the numbered rules of spec/. -/

/-! ### The words of the statements: fields, values and frames, said apart from the model's own helpers -/

namespace Sys2Proof.Claims

open Sys2Proof.Machine

/-- `v[hi:lo]` as a number, by shifting and masking (R8, R83). -/
def fld (w : Word) (hi lo : Nat) : Nat := w.toNat / 2 ^ lo % 2 ^ (hi + 1 - lo)

/-- The index of a register, 0 to 7 (R20). -/
def regNo : Reg → Nat
  | .r0 => 0 | .r1 => 1 | .r2 => 2 | .r3 => 3 | .r4 => 4 | .r5 => 5 | .r6 => 6 | .r7 => 7

/-- The flag that `setcc(v)` leaves, the test for zero first (R24). -/
def flagSpec (v : Word) : Cond :=
  if v = 0 then .zero else if fld v 15 15 = 1 then .negative else .positive

/-- The two's-complement reading of an N-bit field as a 16-bit word (R9, R10). -/
def sextSpec {n : Nat} (v : BitVec n) : Word := BitVec.ofInt 16 v.toInt

/-- A byte as a word with zero high bits (R10). -/
def zextSpec (b : Byte) : Word := BitVec.ofNat 16 b.toNat

/-- Bits 7:0 of a word as a byte. -/
def lowSpec (w : Word) : Byte := BitVec.ofNat 8 (fld w 7 0)

/-- Bits 15:8 of a word as a byte. -/
def highSpec (w : Word) : Byte := BitVec.ofNat 8 (fld w 15 8)

/-- Every general register is unchanged. -/
def RegsSame (s t : State) : Prop := ∀ r, t.reg r = s.reg r

/-- Register `d` gets `v` and every other register is unchanged. -/
def RegsAfter (s t : State) (d : Reg) (v : Word) : Prop := t.reg d = v ∧ ∀ r, r ≠ d → t.reg r = s.reg r

/-- Every word of memory reads as before. -/
def MemSame (s t : State) : Prop := ∀ a, t.peek a = s.peek a

/-- The word at `a` gets `v` and every other word reads as before. -/
def MemAfter (s t : State) (a v : Word) : Prop := t.peek a = v ∧ ∀ b, b ≠ a → t.peek b = s.peek b

/-- The input not consumed and the count of polls are unchanged. -/
def InputSame (s t : State) : Prop := t.inq = s.inq ∧ t.polls = s.polls

/-- The execution state, the service in progress and the host's request are unchanged. -/
def ControlSame (s t : State) : Prop := t.run = s.run ∧ t.service = s.service ∧ t.termReq = s.termReq

/-- All but the general registers, cc and pc is unchanged. -/
def RestSame (s t : State) : Prop := MemSame s t ∧ InputSame s t ∧ t.out = s.out ∧ ControlSame s t

/-- The effect of an instruction that writes a result register and nothing else: the register, the flag from its new value,
and the frame. -/
def ResultOnly (s t : State) (d : Reg) (v : Word) : Prop :=
  RegsAfter s t d v ∧ t.cc = flagSpec v ∧ t.pc = s.pc ∧ RestSame s t

/-- The effect of a load whose reads leave the state `m` and give `v`: as `ResultOnly`, with memory and input as the reads
leave them. -/
def ResultAfterReads (s m t : State) (d : Reg) (v : Word) : Prop :=
  RegsAfter s t d v ∧ t.cc = flagSpec v ∧ t.pc = s.pc ∧ MemSame m t ∧ InputSame m t ∧ t.out = s.out ∧ ControlSame s t

/-- The effect of a store of `v` at `a` after reads that leave the state `m`: no register, flag or pc changes, and no other
word of memory. -/
def StoreAfterReads (s m t : State) (a v : Word) : Prop :=
  MemAfter m t a v ∧ RegsSame s t ∧ t.cc = s.cc ∧ t.pc = s.pc ∧ InputSame m t ∧ t.out = s.out ∧ ControlSame s t

/-- The effect of a trap that does nothing but link and emit `bs`. -/
def LinkAndEmit (s t : State) (bs : List Byte) : Prop :=
  RegsAfter s t .r7 s.pc ∧ t.cc = s.cc ∧ t.pc = s.pc ∧ MemSame s t ∧ InputSame s t ∧ t.out = s.out ++ bs ∧ ControlSame s t

/-- The effect of GETC or IN once it has its byte `b`, `rest` being the input left and `bs` what was emitted. -/
def CharAccepted (s t : State) (b : Byte) (rest bs : List Byte) : Prop :=
  t.reg .r0 = zextSpec b ∧ t.reg .r7 = s.pc ∧ (∀ r, r ≠ .r0 → r ≠ .r7 → t.reg r = s.reg r) ∧
  t.cc = (if b = 0 then .zero else .positive) ∧ t.pc = s.pc ∧ MemSame s t ∧ t.inq = rest ∧ t.polls = s.polls ∧
  t.out = s.out ++ bs ∧ t.run = s.run ∧ t.service = .idle ∧ t.termReq = s.termReq

/-- GETC or IN in its wait: linked, `bs` emitted, nothing else done. -/
def CharAwaited (s t : State) (w : ServiceState) (bs : List Byte) : Prop :=
  RegsAfter s t .r7 s.pc ∧ t.cc = s.cc ∧ t.pc = s.pc ∧ MemSame s t ∧ InputSame s t ∧ t.out = s.out ++ bs ∧
  t.run = s.run ∧ t.service = w ∧ t.termReq = s.termReq

/-- The string at `p` has `n` words before its terminator, the first zero word; addresses wrap (R62). -/
def StringAt (s : State) (p : Word) (n : Nat) : Prop :=
  n < 65536 ∧ s.peek (p + BitVec.ofNat 16 n) = 0 ∧ ∀ k, k < n → s.peek (p + BitVec.ofNat 16 k) ≠ 0

/-- The bits an instruction does not read (R82, R92). -/
def unreadBits : Instr → Word
  | .addR _ _ _ | .andR _ _ _ => 0x0018
  | .not _ _ => 0x003F
  | .jmp _ => 0x0E3F
  | .jsrr _ => 0x063F
  | .trap _ | .getc | .out | .puts | .in_ | .putsp | .halt => 0x0F00
  | .rti | .res => 0x0FFF
  | .addI _ _ _ | .andI _ _ _ | .br _ _ | .jsr _ | .ld _ _ | .ldi _ _ | .ldr _ _ _ | .lea _ _ | .st _ _ | .sti _ _
  | .str _ _ _ => 0

/-- The result register that an instruction writes, with its flag recomputed (R21); GETC and IN as well, when there is a
byte to read. -/
def resultReg (i : Instr) (s : State) : Option Reg :=
  match i with
  | .addR d _ _ | .addI d _ _ | .andR d _ _ | .andI d _ _ | .not d _ | .ld d _ | .ldi d _ | .ldr d _ _ | .lea d _ => some d
  | .getc | .in_ => if s.inq = [] then none else some .r0
  | .trap v => if (v = 0x20 ∨ v = 0x23) ∧ s.inq ≠ [] then some .r0 else none
  | .br _ _ | .jmp _ | .jsr _ | .jsrr _ | .st _ _ | .sti _ _ | .str _ _ _ | .rti | .res | .out | .puts | .putsp | .halt => none

/-- Whether an instruction writes R7 as the link (R21, R22). -/
def linksR7 : Instr → Prop
  | .jsr _ | .jsrr _ | .trap _ | .getc | .out | .puts | .in_ | .putsp | .halt => True
  | .addR _ _ _ | .addI _ _ _ | .andR _ _ _ | .andI _ _ _ | .not _ _ | .br _ _ | .jmp _ | .ld _ _ | .ldi _ _ | .ldr _ _ _
  | .lea _ _ | .st _ _ | .sti _ _ | .str _ _ _ | .rti | .res => False

/-- The address an instruction stores to (R51, R160). -/
def storeAddr (i : Instr) (s : State) : Option Word :=
  match i with
  | .st _ o => some (s.pcRel9 o)
  | .sti _ o => some (s.indirect9 o).1
  | .str _ b o => some (s.baseOff6 b o)
  | .addR _ _ _ | .addI _ _ _ | .andR _ _ _ | .andI _ _ _ | .not _ _ | .br _ _ | .jmp _ | .jsr _ | .jsrr _ | .ld _ _
  | .ldi _ _ | .ldr _ _ _ | .lea _ _ | .trap _ | .rti | .res | .getc | .out | .puts | .in_ | .putsp | .halt => none

/-- The addresses an instruction reads with MemRead in its execution (R51). -/
def readAddrs (i : Instr) (s : State) : List Word :=
  match i with
  | .ld _ o | .sti _ o => [s.pcRel9 o]
  | .ldi _ o => [s.pcRel9 o, (s.indirect9 o).1]
  | .ldr _ b o => [s.baseOff6 b o]
  | .addR _ _ _ | .addI _ _ _ | .andR _ _ _ | .andI _ _ _ | .not _ _ | .br _ _ | .jmp _ | .jsr _ | .jsrr _ | .lea _ _
  | .st _ _ | .str _ _ _ | .trap _ | .rti | .res | .getc | .out | .puts | .in_ | .putsp | .halt => []

/-- The word an image puts at an address: B[2k+2] << 8 | B[2k+3] at origin + k, no wrap, no half word (R281, R283). -/
def imageWord (bytes : List Byte) (a : Word) : Option Word :=
  match bytes with
  | hi :: lo :: body =>
    let origin := hi.toNat * 256 + lo.toNat
    let k := a.toNat - origin
    if origin ≤ a.toNat then
      match body[2 * k]?, body[2 * k + 1]? with
      | some x, some y => some (BitVec.ofNat 16 (x.toNat * 256 + y.toNat))
      | _, _ => none
    else none
  | _ => none

/-- The block is RUNNING at an instruction boundary where no TERM_REQ lands (R97, R245). -/
def AtBoundary (s : State) : Prop := s.run = .running ∧ s.service = .idle ∧ s.termReq ≠ some 0

end Sys2Proof.Claims

open Sys2Proof Sys2Proof.Machine Sys2Proof.Claims

/-! ### Reset and boot -/

/-- R36: every piece of state at the moment the loop starts, after the images are loaded. INPUT is `Config.input`, an open
parameter (log entry 8). -/
def Obligations.InitialStateAfterBoot : Prop :=
  ∀ images : List (List Byte), images ≠ [] →
    ∃ s, boot (images.map some) = some s ∧
      (∀ r, s.reg r = 0x0000) ∧ s.pc = 0x3000 ∧ s.cc = .zero ∧
      (∀ a, s.peek a = ((images.filterMap fun i => imageWord i a).getLast?).getD 0x0000) ∧
      s.run = .running ∧ s.inq = Config.input ∧ s.out = []

/-- The model's invariant holds at reset. -/
def Obligations.InvariantAtReset : Prop := State.reset.Inv

/-- The model's invariant holds in every state the loop can start in, whatever the images. -/
def Obligations.InvariantAfterBoot : Prop :=
  ∀ (args : List (Option (List Byte))) (s : State), boot args = some s → s.Inv

/-- The model's invariant is kept by every step: memory stays canonical, a waiting service and HALTED keep x[7] = pc, an
abort names a reserved opcode and its address, an endless string loop walks a memory without a zero word. -/
def Obligations.StepKeepsInvariant : Prop :=
  ∀ s t : State, s.Inv → step s = .next t → t.Inv

/-! ### Encoding -/

/-- Decoding the word of any well-formed instruction gives it back, every operand at every value. -/
def Obligations.EncodeThenDecode : Prop := ∀ i : Instr, i.WellFormed → decode (encode i) = i

/-- Every word decodes to a well-formed instruction, whose own word differs from it in unread bits alone: no bit that R82
names is dropped. -/
def Obligations.DecodeThenEncode : Prop :=
  ∀ w : Word, (decode w).WellFormed ∧ (encode (decode w) ^^^ w) &&& ~~~ unreadBits (decode w) = 0

/-- A few words of 95_test_vectors.md, one per family, decode to the instruction written beside them there. -/
def Obligations.SampleWordsDecode : Prop :=
  decode 0x1642 = .addR .r3 .r1 .r2 ∧ decode 0x503F = .andI .r0 .r0 0x1F ∧ decode 0x05FD = .br 0b010 0x1FD ∧
  decode 0xC1C0 = .jmp .r7 ∧ decode 0x62BF = .ldr .r1 .r2 0x3F ∧ decode 0xB003 = .sti .r0 0x003 ∧
  decode 0xFF25 = .halt ∧ decode 0xDFFF = .res

/-- R92: the bits a layout does not name are not read, whatever they hold (the spec's decision D3, log entry 14). -/
def Obligations.UnreadBitsIgnored : Prop :=
  ∀ w u : Word, decode (w ^^^ (u &&& unreadBits (decode w))) = decode w

/-- R240: from RUNNING, executing a word always gives a next state, and it aborts exactly for opcodes 8 and 13, with that
opcode. No other condition raises anything. That the abort is a next state which carries (op, pc - 1) is the model's choice
(log entry 2), the pair being the spec's decision D17 (R241). -/
def Obligations.OnlyReservedOpcodesAbort : Prop :=
  ∀ (w : Word) (s : State), s.run = .running →
    ∃ t, exec (decode w) s = .next t ∧
      ((∃ op addr, t.run = .aborted op addr) ↔ fld w 15 12 = 8 ∨ fld w 15 12 = 13) ∧
      ∀ op addr, t.run = .aborted op addr → op.toNat = fld w 15 12 ∧ addr = s.pc - 1

/-- R10: sext_N for the four widths the instructions use, and zext_16. -/
def Obligations.ExtensionFormulas : Prop :=
  (∀ v : BitVec 5, sext v = v.setWidth 16 ||| (if v.getLsbD 4 then 0xFFFF#16 <<< 5 else 0)) ∧
  (∀ v : BitVec 6, sext v = v.setWidth 16 ||| (if v.getLsbD 5 then 0xFFFF#16 <<< 6 else 0)) ∧
  (∀ v : BitVec 9, sext v = v.setWidth 16 ||| (if v.getLsbD 8 then 0xFFFF#16 <<< 9 else 0)) ∧
  (∀ v : BitVec 11, sext v = v.setWidth 16 ||| (if v.getLsbD 10 then 0xFFFF#16 <<< 11 else 0)) ∧
  (∀ b : Byte, (zext16 b).toNat = b.toNat)

/-! ### The flag -/

/-- R24: setcc writes cc from the word, zero tested first, and nothing else. -/
def Obligations.FlagRule : Prop :=
  ∀ (v : Word) (s : State),
    (v = 0 → (s.setcc v).cc = .zero) ∧ (v ≠ 0 → fld v 15 15 = 1 → (s.setcc v).cc = .negative) ∧
    (v ≠ 0 → fld v 15 15 = 0 → (s.setcc v).cc = .positive) ∧
    RegsSame s (s.setcc v) ∧ (s.setcc v).pc = s.pc ∧ RestSame s (s.setcc v)

/-! ### Operate instructions -/

/-- R122: ADD, register form. -/
def Obligations.AddRegister : Prop :=
  ∀ d a b : Reg,
    (∀ w, fld w 15 12 = 1 → fld w 5 5 = 0 → fld w 11 9 = regNo d → fld w 8 6 = regNo a → fld w 2 0 = regNo b →
      decode w = .addR d a b) ∧
    ∀ s, ∃ t, exec (.addR d a b) s = .next t ∧ ResultOnly s t d (s.reg a + s.reg b)

/-- R123: ADD, immediate form. -/
def Obligations.AddImmediate : Prop :=
  ∀ (d a : Reg) (i : BitVec 5),
    (∀ w, fld w 15 12 = 1 → fld w 5 5 = 1 → fld w 11 9 = regNo d → fld w 8 6 = regNo a → fld w 4 0 = i.toNat →
      decode w = .addI d a i) ∧
    ∀ s, ∃ t, exec (.addI d a i) s = .next t ∧ ResultOnly s t d (s.reg a + sextSpec i)

/-- R124: AND, register form. -/
def Obligations.AndRegister : Prop :=
  ∀ d a b : Reg,
    (∀ w, fld w 15 12 = 5 → fld w 5 5 = 0 → fld w 11 9 = regNo d → fld w 8 6 = regNo a → fld w 2 0 = regNo b →
      decode w = .andR d a b) ∧
    ∀ s, ∃ t, exec (.andR d a b) s = .next t ∧ ResultOnly s t d (s.reg a &&& s.reg b)

/-- R125: AND, immediate form. -/
def Obligations.AndImmediate : Prop :=
  ∀ (d a : Reg) (i : BitVec 5),
    (∀ w, fld w 15 12 = 5 → fld w 5 5 = 1 → fld w 11 9 = regNo d → fld w 8 6 = regNo a → fld w 4 0 = i.toNat →
      decode w = .andI d a i) ∧
    ∀ s, ∃ t, exec (.andI d a i) s = .next t ∧ ResultOnly s t d (s.reg a &&& sextSpec i)

/-- R126: NOT. That instr[5:0] is not read is the spec's decision D3 (log entry 14). -/
def Obligations.NotRegister : Prop :=
  ∀ d a : Reg,
    (∀ w, fld w 15 12 = 9 → fld w 11 9 = regNo d → fld w 8 6 = regNo a → decode w = .not d a) ∧
    ∀ s, ∃ t, exec (.not d a) s = .next t ∧ ResultOnly s t d (~~~ s.reg a)

/-! ### Control transfer -/

/-- R141: BR is taken when a bit of cond selects the flag that cc holds, and writes pc alone. The bit order is the spec's
decision D2 (log entry 13). -/
def Obligations.BranchOnFlag : Prop :=
  ∀ (c : BitVec 3) (o : BitVec 9),
    (∀ w, fld w 15 12 = 0 → fld w 11 9 = c.toNat → fld w 8 0 = o.toNat → decode w = .br c o) ∧
    ∀ s, ∃ t, exec (.br c o) s = .next t ∧
      ((c.getLsbD 2 ∧ s.cc = .negative) ∨ (c.getLsbD 1 ∧ s.cc = .zero) ∨ (c.getLsbD 0 ∧ s.cc = .positive) →
        t.pc = s.pc + sextSpec o) ∧
      (¬ ((c.getLsbD 2 ∧ s.cc = .negative) ∨ (c.getLsbD 1 ∧ s.cc = .zero) ∨ (c.getLsbD 0 ∧ s.cc = .positive)) →
        t.pc = s.pc) ∧
      RegsSame s t ∧ t.cc = s.cc ∧ RestSame s t

/-- R142: JMP, and RET. -/
def Obligations.JumpThroughRegister : Prop :=
  ∀ b : Reg,
    (∀ w, fld w 15 12 = 12 → fld w 8 6 = regNo b → decode w = .jmp b) ∧
    ∀ s, ∃ t, exec (.jmp b) s = .next t ∧ t.pc = s.reg b ∧ RegsSame s t ∧ t.cc = s.cc ∧ RestSame s t

/-- R143: JSR. `s.pc` is the incremented pc. -/
def Obligations.JsrLinksAndJumps : Prop :=
  ∀ o : BitVec 11,
    (∀ w, fld w 15 12 = 4 → fld w 11 11 = 1 → fld w 10 0 = o.toNat → decode w = .jsr o) ∧
    ∀ s, ∃ t, exec (.jsr o) s = .next t ∧
      RegsAfter s t .r7 s.pc ∧ t.pc = s.pc + sextSpec o ∧ t.cc = s.cc ∧ RestSame s t

/-- R144: JSRR, with base R7 too: the new R7 is then the target (the spec's decision D15, log entry 19). -/
def Obligations.JsrrLinksAndJumps : Prop :=
  ∀ b : Reg,
    (∀ w, fld w 15 12 = 4 → fld w 11 11 = 0 → fld w 8 6 = regNo b → decode w = .jsrr b) ∧
    ∀ s, ∃ t, exec (.jsrr b) s = .next t ∧
      RegsAfter s t .r7 s.pc ∧ t.pc = (if b = .r7 then s.pc else s.reg b) ∧ t.cc = s.cc ∧ RestSame s t

/-! ### Memory -/

/-- R55 and R56: MemRead returns the word after any poll; only address 0xFE00 polls; what a poll writes. Whether a poll
with input left finds it is the free draw `Config.avail` (log entry 6); the words it writes are the spec's decisions D5 and
D6 (log entry 16). -/
def Obligations.MemReadPollsOnlyKbsr : Prop :=
  ∀ (a : Word) (s : State),
    (s.memRead a).1 = (s.memRead a).2.peek a ∧
    (a ≠ 0xFE00 → (s.memRead a).2 = s) ∧
    (a = 0xFE00 →
      RegsSame s (s.memRead a).2 ∧ (s.memRead a).2.pc = s.pc ∧ (s.memRead a).2.cc = s.cc ∧ (s.memRead a).2.out = s.out ∧
      ControlSame s (s.memRead a).2 ∧
      match s.inq with
      | [] => MemAfter s (s.memRead a).2 0xFE00 0x0000 ∧ (s.memRead a).2.inq = []
      | b :: rest =>
        if Config.avail s.polls = true then
          (s.memRead a).2.peek 0xFE00 = 0x8000 ∧ (s.memRead a).2.peek 0xFE02 = zextSpec b ∧
          (∀ x, x ≠ 0xFE00 → x ≠ 0xFE02 → (s.memRead a).2.peek x = s.peek x) ∧ (s.memRead a).2.inq = rest
        else MemAfter s (s.memRead a).2 0xFE00 0x0000 ∧ (s.memRead a).2.inq = b :: rest)

/-- R60: every MemRead of 0xFE00 returns 0x0000 or 0x8000; a value stored there is seen by MemPeek until the next MemRead,
which overwrites it with what it returns. The spec marks R60 as derived; 0x8000 is its decision D5 (log entry 16). -/
def Obligations.KbsrReadsReadyOrZero : Prop :=
  ∀ s : State,
    ((s.memRead 0xFE00).1 = 0x0000 ∨ (s.memRead 0xFE00).1 = 0x8000) ∧
    (s.memRead 0xFE00).2.peek 0xFE00 = (s.memRead 0xFE00).1 ∧
    ∀ v, (s.memWrite 0xFE00 v).peek 0xFE00 = v ∧
      (((s.memWrite 0xFE00 v).memRead 0xFE00).1 = 0x0000 ∨ ((s.memWrite 0xFE00 v).memRead 0xFE00).1 = 0x8000)

/-- R57: MemWrite is a plain store at every address. -/
def Obligations.MemWriteIsPlain : Prop :=
  ∀ (a v : Word) (s : State),
    MemAfter s (s.memWrite a v) a v ∧ RegsSame s (s.memWrite a v) ∧ (s.memWrite a v).pc = s.pc ∧
    (s.memWrite a v).cc = s.cc ∧ InputSame s (s.memWrite a v) ∧ (s.memWrite a v).out = s.out ∧
    ControlSame s (s.memWrite a v)

/-- R161: LD. -/
def Obligations.LoadPcRelative : Prop :=
  ∀ (d : Reg) (o : BitVec 9),
    (∀ w, fld w 15 12 = 2 → fld w 11 9 = regNo d → fld w 8 0 = o.toNat → decode w = .ld d o) ∧
    ∀ s, ∃ t, exec (.ld d o) s = .next t ∧
      ResultAfterReads s (s.memRead (s.pc + sextSpec o)).2 t d (s.memRead (s.pc + sextSpec o)).1

/-- R162: LDI, the pointer read before the data, both with MemRead. -/
def Obligations.LoadIndirect : Prop :=
  ∀ (d : Reg) (o : BitVec 9),
    (∀ w, fld w 15 12 = 10 → fld w 11 9 = regNo d → fld w 8 0 = o.toNat → decode w = .ldi d o) ∧
    ∀ s, let p := s.memRead (s.pc + sextSpec o)
      ∃ t, exec (.ldi d o) s = .next t ∧ ResultAfterReads s (p.2.memRead p.1).2 t d (p.2.memRead p.1).1

/-- R163: LDR, the address from the old base register. -/
def Obligations.LoadBaseOffset : Prop :=
  ∀ (d b : Reg) (o : BitVec 6),
    (∀ w, fld w 15 12 = 6 → fld w 11 9 = regNo d → fld w 8 6 = regNo b → fld w 5 0 = o.toNat → decode w = .ldr d b o) ∧
    ∀ s, ∃ t, exec (.ldr d b o) s = .next t ∧
      ResultAfterReads s (s.memRead (s.reg b + sextSpec o)).2 t d (s.memRead (s.reg b + sextSpec o)).1

/-- R164: LEA, no memory access and so no poll, and it sets the flag. -/
def Obligations.LoadEffectiveAddress : Prop :=
  ∀ (d : Reg) (o : BitVec 9),
    (∀ w, fld w 15 12 = 14 → fld w 11 9 = regNo d → fld w 8 0 = o.toNat → decode w = .lea d o) ∧
    ∀ s, ∃ t, exec (.lea d o) s = .next t ∧ ResultOnly s t d (s.pc + sextSpec o)

/-- R165: ST. -/
def Obligations.StorePcRelative : Prop :=
  ∀ (r : Reg) (o : BitVec 9),
    (∀ w, fld w 15 12 = 3 → fld w 11 9 = regNo r → fld w 8 0 = o.toNat → decode w = .st r o) ∧
    ∀ s, ∃ t, exec (.st r o) s = .next t ∧ StoreAfterReads s s t (s.pc + sextSpec o) (s.reg r)

/-- R166: STI, the pointer read with MemRead. -/
def Obligations.StoreIndirect : Prop :=
  ∀ (r : Reg) (o : BitVec 9),
    (∀ w, fld w 15 12 = 11 → fld w 11 9 = regNo r → fld w 8 0 = o.toNat → decode w = .sti r o) ∧
    ∀ s, let p := s.memRead (s.pc + sextSpec o)
      ∃ t, exec (.sti r o) s = .next t ∧ StoreAfterReads s p.2 t p.1 (s.reg r)

/-- R167: STR stores the register's value. -/
def Obligations.StoreBaseOffset : Prop :=
  ∀ (r b : Reg) (o : BitVec 6),
    (∀ w, fld w 15 12 = 7 → fld w 11 9 = regNo r → fld w 8 6 = regNo b → fld w 5 0 = o.toNat → decode w = .str r b o) ∧
    ∀ s, ∃ t, exec (.str r b o) s = .next t ∧ StoreAfterReads s s t (s.reg b + sextSpec o) (s.reg r)

/-- R67: a word stored by ST, STI or STR at an address the fetch does not poll is the word the next fetch of that address
decodes and runs. -/
def Obligations.StoredWordIsFetched : Prop :=
  ∀ (i : Instr) (r : Reg) (s t : State),
    (∃ o, i = .st r o) ∨ (∃ o, i = .sti r o) ∨ (∃ b o, i = .str r b o) →
    AtBoundary s → s.pc ≠ 0xFE00 → storeAddr i s = some s.pc → exec i s = .next t →
    step t = exec (decode (s.reg r)) { t with pc := t.pc + 1, termReq := t.termReq.map (· - 1) }

/-- A load returns the last word stored at its address, KBSR apart. -/
def Obligations.StoreThenLoad : Prop :=
  ∀ (r d b : Reg) (o : BitVec 6) (s t : State),
    s.reg b + sextSpec o ≠ 0xFE00 → exec (.str r b o) s = .next t →
    ∃ u, exec (.ldr d b o) t = .next u ∧ u.reg d = s.reg r ∧ u.cc = flagSpec (s.reg r)

/-! ### Traps -/

/-- R190, R200: TRAP writes the incremented pc to R7 for every vector and leaves pc and memory alone; only R7, and R0 for
GETC and IN, are written; cc changes for GETC and IN alone. -/
def Obligations.TrapLinksAndContinues : Prop :=
  ∀ (v : BitVec 8) (s : State), ∃ t, exec (.trap v) s = .next t ∧
    t.reg .r7 = s.pc ∧ t.pc = s.pc ∧ MemSame s t ∧ (∀ r, r ≠ .r7 → r ≠ .r0 → t.reg r = s.reg r) ∧
    (v ≠ 0x20 → v ≠ 0x23 → t.reg .r0 = s.reg .r0 ∧ t.cc = s.cc ∧ t.inq = s.inq) ∧
    t.polls = s.polls ∧ t.termReq = s.termReq ∧ t.run = (if v = 0x25 then .halted else s.run)

/-- R198: an unknown vector does nothing beyond the link. -/
def Obligations.UnknownVectorOnlyLinks : Prop :=
  ∀ v : BitVec 8, v.toNat < 0x20 ∨ 0x25 < v.toNat →
    (∀ w, fld w 15 12 = 15 → fld w 7 0 = v.toNat → decode w = .trap v) ∧
    ∀ s, ∃ t, exec (.trap v) s = .next t ∧ LinkAndEmit s t []

/-- R191: the six vectors select the six services: a TRAP word's execution is TRAP of its vector, and the six rows are TRAP
of 0x20 to 0x25. That they have constructors of their own, where R96 has Trap(vector), is the model's choice
(log entry 10). -/
def Obligations.ServiceRowsAreTraps : Prop :=
  (∀ (w : Word) (s : State), fld w 15 12 = 15 → exec (decode w) s = exec (.trap (BitVec.ofNat 8 (fld w 7 0))) s) ∧
  ∀ w : Word, fld w 15 12 = 15 →
    (fld w 7 0 = 0x20 → decode w = .getc) ∧ (fld w 7 0 = 0x21 → decode w = .out) ∧ (fld w 7 0 = 0x22 → decode w = .puts) ∧
    (fld w 7 0 = 0x23 → decode w = .in_) ∧ (fld w 7 0 = 0x24 → decode w = .putsp) ∧ (fld w 7 0 = 0x25 → decode w = .halt)

/-- R192: GETC takes the head of inq into R0 without echo and sets cc from it; with inq empty it waits. -/
def Obligations.GetcReadsWithoutEcho : Prop :=
  ∀ s : State, ∃ t, exec .getc s = .next t ∧
    (∀ b rest, s.inq = b :: rest → CharAccepted s t b rest []) ∧
    (s.inq = [] → CharAwaited s t .getcWait [])

/-- R193: OUT emits the low byte of R0. -/
def Obligations.OutEmitsLowByte : Prop :=
  ∀ s : State, ∃ t, exec .out s = .next t ∧ LinkAndEmit s t [lowSpec (s.reg .r0)]

/-- R194: PUTS emits the low byte of each word before the first zero word; no poll, R0 and cc unchanged. -/
def Obligations.PutsEmitsString : Prop :=
  ∀ (s : State) (n : Nat), StringAt s (s.reg .r0) n →
    ∃ t, exec .puts s = .next t ∧
      LinkAndEmit s t ((List.range n).map fun k => lowSpec (s.peek (s.reg .r0 + BitVec.ofNat 16 k)))

/-- R195: IN emits the prompt, takes the head of inq, emits it once and puts it in R0, setting cc; with inq empty it waits
after the prompt. The prompt is the open parameter `Config.inPrompt` (log entry 7). -/
def Obligations.InPromptsAndEchoes : Prop :=
  ∀ s : State, ∃ t, exec .in_ s = .next t ∧
    (∀ b rest, s.inq = b :: rest → CharAccepted s t b rest (Config.inPrompt ++ [b])) ∧
    (s.inq = [] → CharAwaited s t .inWait Config.inPrompt)

/-- R196: PUTSP emits, for each word before the first zero word, its low byte and then its high byte unless that is 0. -/
def Obligations.PutspEmitsPackedString : Prop :=
  ∀ (s : State) (n : Nat), StringAt s (s.reg .r0) n →
    ∃ t, exec .putsp s = .next t ∧
      LinkAndEmit s t ((List.range n).flatMap fun k =>
        let w := s.peek (s.reg .r0 + BitVec.ofNat 16 k)
        if highSpec w ≠ 0 then [lowSpec w, highSpec w] else [lowSpec w])

/-- R197: HALT links, emits the halt message and ends HALTED; no further step, and
the host returns a success status. The message is the open parameter
`Config.haltMessage` (log entry 7). -/
def Obligations.HaltEndsTheRun : Prop :=
  ∀ s : State, ∃ t, exec .halt s = .next t ∧
    RegsAfter s t .r7 s.pc ∧ t.cc = s.cc ∧ t.pc = s.pc ∧ MemSame s t ∧ InputSame s t ∧
    t.out = s.out ++ Config.haltMessage ∧ t.run = .halted ∧ t.service = s.service ∧ t.termReq = s.termReq ∧
    t.exitStatus = some .success ∧ ∀ u, step t ≠ .next u

/-- R194, R196 (a corner case): with no zero word in memory PUTS and PUTSP never end: they link, stay RUNNING, and every
further turn emits the next word's bytes, for ever. How the turns are cut is the model's choice (log entry 4). -/
def Obligations.EndlessStringNeverCompletes : Prop :=
  ∀ s : State, (∀ a, s.peek a ≠ 0) → s.run = .running →
    (∃ t, exec .puts s = .next t ∧ RegsAfter s t .r7 s.pc ∧ t.out = s.out ∧
      ∀ k, ∃ u, Host.Core.run Sys2Proof.core k t = .next u ∧ u.run = .running ∧ u.service ≠ .idle ∧
        MemSame s u ∧ u.out = s.out ++ (List.range k).map fun j => lowSpec (s.peek (s.reg .r0 + BitVec.ofNat 16 j))) ∧
    (∃ t, exec .putsp s = .next t ∧ RegsAfter s t .r7 s.pc ∧ t.out = s.out ∧
      ∀ k, ∃ u, Host.Core.run Sys2Proof.core k t = .next u ∧ u.run = .running ∧ u.service ≠ .idle ∧
        MemSame s u ∧ s.out.length + k ≤ u.out.length)

/-! ### Reserved opcodes -/

/-- R231, R233, R241: RTI ends ABORTED, changes nothing else, and the outcome is ReservedOpcode(8, pc - 1). That it comes
from the step after (and not from exec itself) is the model's choice (log entry 2). -/
def Obligations.RtiAborts : Prop :=
  (∀ w, fld w 15 12 = 8 → decode w = .rti) ∧
  ∀ s, ∃ t, exec .rti s = .next t ∧ t.run = .aborted 8 (s.pc - 1) ∧
    RegsSame s t ∧ t.cc = s.cc ∧ t.pc = s.pc ∧ MemSame s t ∧ InputSame s t ∧ t.out = s.out ∧
    t.service = s.service ∧ t.termReq = s.termReq ∧
    step t = .fault (.reservedOpcode 8 (s.pc - 1)) ∧ t.exitStatus = some .abort

/-- R232, R233, R241: RES ends ABORTED, changes nothing else, and the outcome is ReservedOpcode(13, pc - 1). -/
def Obligations.ResAborts : Prop :=
  (∀ w, fld w 15 12 = 13 → decode w = .res) ∧
  ∀ s, ∃ t, exec .res s = .next t ∧ t.run = .aborted 13 (s.pc - 1) ∧
    RegsSame s t ∧ t.cc = s.cc ∧ t.pc = s.pc ∧ MemSame s t ∧ InputSame s t ∧ t.out = s.out ∧
    t.service = s.service ∧ t.termReq = s.termReq ∧
    step t = .fault (.reservedOpcode 13 (s.pc - 1)) ∧ t.exitStatus = some .abort

/-! ### The instruction cycle -/

/-- R97, R99: a step at a boundary reads the word at pc with MemRead, increments pc modulo 2^16, decodes and executes. The
host's request comes one moment nearer (log entry 5). -/
def Obligations.StepRunsDecodedInstruction : Prop :=
  ∀ s : State, AtBoundary s →
    let r := (State.memRead s.pc { s with termReq := s.termReq.map (· - 1) })
    step s = exec (decode r.1) { r.2 with pc := s.pc + 1 }

/-- R98: a fetch at 0xFE00 polls: with no byte found it runs 0x0000, a BR never taken; with a byte found it runs 0x8000,
which aborts as RTI at 0xFE00. That the fetch polls is the spec's decision D9 (log entry 17). -/
def Obligations.FetchAtKbsrPolls : Prop :=
  ∀ s : State, AtBoundary s → s.pc = 0xFE00 →
    ∃ t, step s = .next t ∧ t.pc = 0xFE01 ∧ RegsSame s t ∧ t.cc = s.cc ∧ t.out = s.out ∧
      match s.inq with
      | [] => t.run = .running ∧ MemAfter s t 0xFE00 0x0000
      | b :: rest =>
        if Config.avail s.polls = true then
          t.run = .aborted 8 0xFE00 ∧ t.peek 0xFE00 = 0x8000 ∧ t.peek 0xFE02 = zextSpec b ∧ t.inq = rest
        else t.run = .running ∧ MemAfter s t 0xFE00 0x0000 ∧ t.inq = b :: rest

/-- R100: outside RUNNING no step is taken, and the outcome names the end. -/
def Obligations.FinalStatesTakeNoStep : Prop :=
  ∀ s : State, s.run ≠ .running →
    (∀ t, step s ≠ .next t) ∧
    (s.run = .halted → step s = .fault .halted) ∧ (s.run = .terminated → step s = .fault .terminated) ∧
    ∀ op addr, s.run = .aborted op addr → step s = .fault (.reservedOpcode op addr)

/-- No transition leaves HALTED, ABORTED or TERMINATED: whatever is reached from such a state is that state. -/
def Obligations.FinalStatesAreFinal : Prop :=
  ∀ s t : State, s.run ≠ .running → Reaches s t → t = s

/-- From RUNNING every step gives a next state: no word, address or operand makes the block fault or refuse. That an abort
is a next state, and that a wait on empty input and an endless string go on in steps (R31 says that a wait has no step), is
the model's choice (log entries 2, 3 and 4). -/
def Obligations.RunningAlwaysSteps : Prop :=
  ∀ s : State, s.run = .running → ∃ t, step s = .next t

/-- R245: TERM_REQ lands at a boundary or in a wait and leaves everything but run as it was. -/
def Obligations.TerminationRequestLands : Prop :=
  ∀ s : State, s.run = .running → s.service = .idle ∨ s.service = .getcWait ∨ s.service = .inWait → s.termReq = some 0 →
    step s = .next { s with run := .terminated } ∧ ∀ u, step { s with run := .terminated } ≠ .next u

/-- R293: a wait on an empty inq holds for ever unless TERM_REQ lands, and then it ends with nothing read; a wait with a
byte to read completes. -/
def Obligations.InputWaitHolds : Prop :=
  ∀ s : State, s.run = .running → s.service = .getcWait ∨ s.service = .inWait →
    (s.inq = [] → s.termReq = none → ∀ k, Host.Core.run Sys2Proof.core k s = .next s) ∧
    (∀ n, s.inq = [] → s.termReq = some n →
      Host.Core.run Sys2Proof.core (n + 1) s = .next { s with run := .terminated, termReq := some 0 }) ∧
    (∀ b rest, s.inq = b :: rest → s.termReq ≠ some 0 →
      ∃ t, step s = .next t ∧ t.service = .idle ∧ RegsAfter s t .r0 (zextSpec b) ∧ t.cc = (if b = 0 then .zero else .positive) ∧
        t.inq = rest ∧ t.pc = s.pc ∧ MemSame s t ∧
        t.out = s.out ++ (if s.service = .inWait then [b] else []))

/-! ### The whole machine -/

/-- R35: over every run, the output only grows at its end and the input is only consumed from its front. -/
def Obligations.OutputGrowsInputShrinks : Prop :=
  ∀ s t : State, Reaches s t → s.out <+: t.out ∧ t.inq <:+ s.inq

/-- R21: the registers each instruction writes and when the flag is recomputed: a result register with the flag from its new
value, R7 as a link with the flag untouched, and no other register. -/
def Obligations.RegisterAndFlagWriters : Prop :=
  ∀ (i : Instr) (s t : State), exec i s = .next t →
    (∀ r, t.reg r ≠ s.reg r → resultReg i s = some r ∨ (r = .r7 ∧ linksR7 i)) ∧
    (linksR7 i → t.reg .r7 = s.pc) ∧
    (∀ d, resultReg i s = some d → t.cc = flagSpec (t.reg d)) ∧
    (resultReg i s = none → t.cc = s.cc)

/-- Only BR reads cc: with any other value in cc, every other instruction does the same to everything but cc. -/
def Obligations.OnlyBranchReadsFlag : Prop :=
  ∀ (i : Instr) (c : Cond) (s t u : State), (∀ m o, i ≠ .br m o) →
    exec i s = .next t → exec i { s with cc := c } = .next u → u = { t with cc := u.cc }

/-- Memory changes only where the instruction stores, and at KBSR and KBDR when it reads 0xFE00. -/
def Obligations.MemoryWriters : Prop :=
  ∀ (i : Instr) (s t : State) (a : Word), exec i s = .next t → t.peek a ≠ s.peek a →
    storeAddr i s = some a ∨ ((a = 0xFE00 ∨ a = 0xFE02) ∧ 0xFE00 ∈ readAddrs i s)

/-- Only BR, JMP, JSR and JSRR write pc during execute. -/
def Obligations.OnlyControlTransferWritesPc : Prop :=
  ∀ (i : Instr) (s t : State), exec i s = .next t → t.pc ≠ s.pc →
    (∃ c o, i = .br c o) ∨ (∃ b, i = .jmp b) ∨ (∃ o, i = .jsr o) ∨ ∃ b, i = .jsrr b

/-- R285 (derived there): where memory holds zero, execution slides to the next word with nothing else changed. -/
def Obligations.ZeroWordSlides : Prop :=
  ∀ s : State, AtBoundary s → s.pc ≠ 0xFE00 → s.peek s.pc = 0x0000 →
    step s = .next { s with pc := s.pc + 1, termReq := s.termReq.map (· - 1) }

/-! ### Image loading -/

/-- R281, R283: an image's words, big-endian, at rising addresses from its origin, and nothing else. The edge cases are the
spec's decision D21 (log entry 22). -/
def Obligations.LoaderPutsImageWords : Prop :=
  ∀ (bytes : List Byte) (s : State),
    (∀ a, (loadImage bytes s).peek a = (imageWord bytes a).getD (s.peek a)) ∧
    RegsSame s (loadImage bytes s) ∧ (loadImage bytes s).pc = s.pc ∧ (loadImage bytes s).cc = s.cc ∧
    InputSame s (loadImage bytes s) ∧ (loadImage bytes s).out = s.out ∧ ControlSame s (loadImage bytes s)

/-- R282: with several images, the last that has a word at an address decides it. -/
def Obligations.LaterImagesOverwrite : Prop :=
  ∀ (images : List (List Byte)) (s : State) (a : Word),
    (loadImages images s).peek a = ((images.filterMap fun i => imageWord i a).getLast?).getD (s.peek a)

/-- R284: with no image, or with one that fails to load, the core is not started. -/
def Obligations.NoStartWithoutImages : Prop :=
  ∀ args : List (Option (List Byte)), args = [] ∨ none ∈ args → boot args = none
end

