-- ==== Sys2Proof/Laws/Decode.lean ====
section
/-! SUPPORT. Reading back the fields that the encoder wrote. -/

namespace Sys2Proof

@[simp] theorem Reg.ofBits_toBits (r : Reg) : Reg.ofBits r.toBits = r := by cases r <;> decide

@[simp] theorem Reg.toBits_ofBits (b : BitVec 3) : (Reg.ofBits b).toBits = b := by revert b; decide

@[simp] theorem Opcode.ofBits_toBits (o : Opcode) : Opcode.ofBits o.toBits = o := by cases o <;> decide

@[simp] theorem Opcode.toBits_ofBits (b : BitVec 4) : (Opcode.ofBits b).toBits = b := by revert b; decide

@[simp] theorem bits_or (x y : Word) (lo len : Nat) : bits (x ||| y) lo len = bits x lo len ||| bits y lo len := by
  ext i hi; simp [bits]

/-- A field read by shifting and masking (R83). -/
theorem bits_toNat (w : Word) (lo len : Nat) : (bits w lo len).toNat = w.toNat / 2 ^ lo % 2 ^ len := by
  simp [bits, Nat.shiftRight_eq_div_pow]

/-- Reading a field where it was put gives it back. -/
theorem bits_place_same {n : Nat} (lo : Nat) (v : BitVec n) (h : lo + n ≤ 16) : bits (place lo v) lo n = v := by
  ext i hi
  simp [bits, place, BitVec.getLsbD_eq_getElem, hi, show lo + i < 16 by omega]

/-- Reading a field that does not overlap the one put in gives zeros. -/
theorem bits_place_disjoint {n : Nat} (lo : Nat) (v : BitVec n) (lo' len : Nat) (h : lo + n ≤ lo' ∨ lo' + len ≤ lo) :
    bits (place lo v) lo' len = 0 := by
  ext i hi
  simp only [bits, place, BitVec.getElem_extractLsb', BitVec.getLsbD_shiftLeft, BitVec.getLsbD_setWidth]
  rcases h with h | h
  · simp [BitVec.getLsbD_of_ge v (lo' + i - lo) (by omega)]
  · simp [show lo' + i < lo by omega]

/-- The decoder looks at a trap vector's own row first (R191). -/
theorem decodeTrap_of_not_service {v : BitVec 8} (h : isServiceVector v = false) : decodeTrap v = .trap v := by
  have : serviceOf v = none := by revert v; decide
  simp [decodeTrap, this]

end Sys2Proof
end

