-- ==== Sys2Proof/Laws/State.lean ====
section
/-! SUPPORT. The small lemmas of State: one per field per update, and reading a register or a word after an update. -/

namespace Sys2Proof.Machine

variable (s : State)

@[simp] theorem State.flush_eq : s.flush = s := rfl

/-! `State.setReg` -/

@[simp] theorem State.setReg_regs (s : State) (r : Reg) (v : Word) : (s.setReg r v).regs = s.regs.set r v := rfl
@[simp] theorem State.setReg_pc (s : State) (r : Reg) (v : Word) : (s.setReg r v).pc = s.pc := rfl
@[simp] theorem State.setReg_cc (s : State) (r : Reg) (v : Word) : (s.setReg r v).cc = s.cc := rfl
@[simp] theorem State.setReg_mem (s : State) (r : Reg) (v : Word) : (s.setReg r v).mem = s.mem := rfl
@[simp] theorem State.setReg_run (s : State) (r : Reg) (v : Word) : (s.setReg r v).run = s.run := rfl
@[simp] theorem State.setReg_inq (s : State) (r : Reg) (v : Word) : (s.setReg r v).inq = s.inq := rfl
@[simp] theorem State.setReg_out (s : State) (r : Reg) (v : Word) : (s.setReg r v).out = s.out := rfl
@[simp] theorem State.setReg_service (s : State) (r : Reg) (v : Word) : (s.setReg r v).service = s.service := rfl
@[simp] theorem State.setReg_polls (s : State) (r : Reg) (v : Word) : (s.setReg r v).polls = s.polls := rfl
@[simp] theorem State.setReg_termReq (s : State) (r : Reg) (v : Word) : (s.setReg r v).termReq = s.termReq := rfl

/-! `State.setPc` -/

@[simp] theorem State.setPc_regs (s : State) (v : Word) : (s.setPc v).regs = s.regs := rfl
@[simp] theorem State.setPc_pc (s : State) (v : Word) : (s.setPc v).pc = v := rfl
@[simp] theorem State.setPc_cc (s : State) (v : Word) : (s.setPc v).cc = s.cc := rfl
@[simp] theorem State.setPc_mem (s : State) (v : Word) : (s.setPc v).mem = s.mem := rfl
@[simp] theorem State.setPc_run (s : State) (v : Word) : (s.setPc v).run = s.run := rfl
@[simp] theorem State.setPc_inq (s : State) (v : Word) : (s.setPc v).inq = s.inq := rfl
@[simp] theorem State.setPc_out (s : State) (v : Word) : (s.setPc v).out = s.out := rfl
@[simp] theorem State.setPc_service (s : State) (v : Word) : (s.setPc v).service = s.service := rfl
@[simp] theorem State.setPc_polls (s : State) (v : Word) : (s.setPc v).polls = s.polls := rfl
@[simp] theorem State.setPc_termReq (s : State) (v : Word) : (s.setPc v).termReq = s.termReq := rfl

/-! `State.setcc` -/

@[simp] theorem State.setcc_regs (s : State) (v : Word) : (s.setcc v).regs = s.regs := rfl
@[simp] theorem State.setcc_pc (s : State) (v : Word) : (s.setcc v).pc = s.pc := rfl
@[simp] theorem State.setcc_cc (s : State) (v : Word) : (s.setcc v).cc = flagOf v := rfl
@[simp] theorem State.setcc_mem (s : State) (v : Word) : (s.setcc v).mem = s.mem := rfl
@[simp] theorem State.setcc_run (s : State) (v : Word) : (s.setcc v).run = s.run := rfl
@[simp] theorem State.setcc_inq (s : State) (v : Word) : (s.setcc v).inq = s.inq := rfl
@[simp] theorem State.setcc_out (s : State) (v : Word) : (s.setcc v).out = s.out := rfl
@[simp] theorem State.setcc_service (s : State) (v : Word) : (s.setcc v).service = s.service := rfl
@[simp] theorem State.setcc_polls (s : State) (v : Word) : (s.setcc v).polls = s.polls := rfl
@[simp] theorem State.setcc_termReq (s : State) (v : Word) : (s.setcc v).termReq = s.termReq := rfl

/-! `State.writeResult` -/

@[simp] theorem State.writeResult_regs (s : State) (r : Reg) (v : Word) : (s.writeResult r v).regs = s.regs.set r v := rfl
@[simp] theorem State.writeResult_pc (s : State) (r : Reg) (v : Word) : (s.writeResult r v).pc = s.pc := rfl
@[simp] theorem State.writeResult_cc (s : State) (r : Reg) (v : Word) : (s.writeResult r v).cc = flagOf v := rfl
@[simp] theorem State.writeResult_mem (s : State) (r : Reg) (v : Word) : (s.writeResult r v).mem = s.mem := rfl
@[simp] theorem State.writeResult_run (s : State) (r : Reg) (v : Word) : (s.writeResult r v).run = s.run := rfl
@[simp] theorem State.writeResult_inq (s : State) (r : Reg) (v : Word) : (s.writeResult r v).inq = s.inq := rfl
@[simp] theorem State.writeResult_out (s : State) (r : Reg) (v : Word) : (s.writeResult r v).out = s.out := rfl
@[simp] theorem State.writeResult_service (s : State) (r : Reg) (v : Word) : (s.writeResult r v).service = s.service := rfl
@[simp] theorem State.writeResult_polls (s : State) (r : Reg) (v : Word) : (s.writeResult r v).polls = s.polls := rfl
@[simp] theorem State.writeResult_termReq (s : State) (r : Reg) (v : Word) : (s.writeResult r v).termReq = s.termReq := rfl

/-! `State.memWrite` -/

@[simp] theorem State.memWrite_regs (s : State) (a v : Word) : (s.memWrite a v).regs = s.regs := rfl
@[simp] theorem State.memWrite_pc (s : State) (a v : Word) : (s.memWrite a v).pc = s.pc := rfl
@[simp] theorem State.memWrite_cc (s : State) (a v : Word) : (s.memWrite a v).cc = s.cc := rfl
@[simp] theorem State.memWrite_mem (s : State) (a v : Word) : (s.memWrite a v).mem = s.mem.write a.toNat v := rfl
@[simp] theorem State.memWrite_run (s : State) (a v : Word) : (s.memWrite a v).run = s.run := rfl
@[simp] theorem State.memWrite_inq (s : State) (a v : Word) : (s.memWrite a v).inq = s.inq := rfl
@[simp] theorem State.memWrite_out (s : State) (a v : Word) : (s.memWrite a v).out = s.out := rfl
@[simp] theorem State.memWrite_service (s : State) (a v : Word) : (s.memWrite a v).service = s.service := rfl
@[simp] theorem State.memWrite_polls (s : State) (a v : Word) : (s.memWrite a v).polls = s.polls := rfl
@[simp] theorem State.memWrite_termReq (s : State) (a v : Word) : (s.memWrite a v).termReq = s.termReq := rfl

/-! `State.emit` -/

@[simp] theorem State.emit_regs (s : State) (bs : List Byte) : (s.emit bs).regs = s.regs := rfl
@[simp] theorem State.emit_pc (s : State) (bs : List Byte) : (s.emit bs).pc = s.pc := rfl
@[simp] theorem State.emit_cc (s : State) (bs : List Byte) : (s.emit bs).cc = s.cc := rfl
@[simp] theorem State.emit_mem (s : State) (bs : List Byte) : (s.emit bs).mem = s.mem := rfl
@[simp] theorem State.emit_run (s : State) (bs : List Byte) : (s.emit bs).run = s.run := rfl
@[simp] theorem State.emit_inq (s : State) (bs : List Byte) : (s.emit bs).inq = s.inq := rfl
@[simp] theorem State.emit_out (s : State) (bs : List Byte) : (s.emit bs).out = s.out ++ bs := rfl
@[simp] theorem State.emit_service (s : State) (bs : List Byte) : (s.emit bs).service = s.service := rfl
@[simp] theorem State.emit_polls (s : State) (bs : List Byte) : (s.emit bs).polls = s.polls := rfl
@[simp] theorem State.emit_termReq (s : State) (bs : List Byte) : (s.emit bs).termReq = s.termReq := rfl

/-! `State.tick` -/

@[simp] theorem State.tick_regs (s : State) : s.tick.regs = s.regs := rfl
@[simp] theorem State.tick_pc (s : State) : s.tick.pc = s.pc := rfl
@[simp] theorem State.tick_cc (s : State) : s.tick.cc = s.cc := rfl
@[simp] theorem State.tick_mem (s : State) : s.tick.mem = s.mem := rfl
@[simp] theorem State.tick_run (s : State) : s.tick.run = s.run := rfl
@[simp] theorem State.tick_inq (s : State) : s.tick.inq = s.inq := rfl
@[simp] theorem State.tick_out (s : State) : s.tick.out = s.out := rfl
@[simp] theorem State.tick_service (s : State) : s.tick.service = s.service := rfl
@[simp] theorem State.tick_polls (s : State) : s.tick.polls = s.polls := rfl
@[simp] theorem State.tick_termReq (s : State) : s.tick.termReq = s.termReq.map (· - 1) := rfl

/-! `State.terminate` -/

@[simp] theorem State.terminate_regs (s : State) : s.terminate.regs = s.regs := rfl
@[simp] theorem State.terminate_pc (s : State) : s.terminate.pc = s.pc := rfl
@[simp] theorem State.terminate_cc (s : State) : s.terminate.cc = s.cc := rfl
@[simp] theorem State.terminate_mem (s : State) : s.terminate.mem = s.mem := rfl
@[simp] theorem State.terminate_run (s : State) : s.terminate.run = .terminated := rfl
@[simp] theorem State.terminate_inq (s : State) : s.terminate.inq = s.inq := rfl
@[simp] theorem State.terminate_out (s : State) : s.terminate.out = s.out := rfl
@[simp] theorem State.terminate_service (s : State) : s.terminate.service = s.service := rfl
@[simp] theorem State.terminate_polls (s : State) : s.terminate.polls = s.polls := rfl
@[simp] theorem State.terminate_termReq (s : State) : s.terminate.termReq = s.termReq := rfl

/-! `State.trapEntry` -/

@[simp] theorem State.trapEntry_regs (s : State) : s.trapEntry.regs = s.regs.set .r7 s.pc := rfl
@[simp] theorem State.trapEntry_pc (s : State) : s.trapEntry.pc = s.pc := rfl
@[simp] theorem State.trapEntry_cc (s : State) : s.trapEntry.cc = s.cc := rfl
@[simp] theorem State.trapEntry_mem (s : State) : s.trapEntry.mem = s.mem := rfl
@[simp] theorem State.trapEntry_run (s : State) : s.trapEntry.run = s.run := rfl
@[simp] theorem State.trapEntry_inq (s : State) : s.trapEntry.inq = s.inq := rfl
@[simp] theorem State.trapEntry_out (s : State) : s.trapEntry.out = s.out := rfl
@[simp] theorem State.trapEntry_service (s : State) : s.trapEntry.service = s.service := rfl
@[simp] theorem State.trapEntry_polls (s : State) : s.trapEntry.polls = s.polls := rfl
@[simp] theorem State.trapEntry_termReq (s : State) : s.trapEntry.termReq = s.termReq := rfl

/-! `State.trapReturn` -/

@[simp] theorem State.trapReturn_regs (s : State) : s.trapReturn.regs = s.regs := rfl
@[simp] theorem State.trapReturn_pc (s : State) : s.trapReturn.pc = s.pc := rfl
@[simp] theorem State.trapReturn_cc (s : State) : s.trapReturn.cc = s.cc := rfl
@[simp] theorem State.trapReturn_mem (s : State) : s.trapReturn.mem = s.mem := rfl
@[simp] theorem State.trapReturn_run (s : State) : s.trapReturn.run = s.run := rfl
@[simp] theorem State.trapReturn_inq (s : State) : s.trapReturn.inq = s.inq := rfl
@[simp] theorem State.trapReturn_out (s : State) : s.trapReturn.out = s.out := rfl
@[simp] theorem State.trapReturn_service (s : State) : s.trapReturn.service = .idle := rfl
@[simp] theorem State.trapReturn_polls (s : State) : s.trapReturn.polls = s.polls := rfl
@[simp] theorem State.trapReturn_termReq (s : State) : s.trapReturn.termReq = s.termReq := rfl

/-! `State.abort` -/

@[simp] theorem State.abort_regs (s : State) (op : BitVec 4) : (s.abort op).regs = s.regs := rfl
@[simp] theorem State.abort_pc (s : State) (op : BitVec 4) : (s.abort op).pc = s.pc := rfl
@[simp] theorem State.abort_cc (s : State) (op : BitVec 4) : (s.abort op).cc = s.cc := rfl
@[simp] theorem State.abort_mem (s : State) (op : BitVec 4) : (s.abort op).mem = s.mem := rfl
@[simp] theorem State.abort_run (s : State) (op : BitVec 4) : (s.abort op).run = .aborted op (s.pc - 1) := rfl
@[simp] theorem State.abort_inq (s : State) (op : BitVec 4) : (s.abort op).inq = s.inq := rfl
@[simp] theorem State.abort_out (s : State) (op : BitVec 4) : (s.abort op).out = s.out := rfl
@[simp] theorem State.abort_service (s : State) (op : BitVec 4) : (s.abort op).service = s.service := rfl
@[simp] theorem State.abort_polls (s : State) (op : BitVec 4) : (s.abort op).polls = s.polls := rfl
@[simp] theorem State.abort_termReq (s : State) (op : BitVec 4) : (s.abort op).termReq = s.termReq := rfl

/-! Reading a register after an update -/

@[simp] theorem Regs.get_set (f : Regs) (r q : Reg) (v : Word) : (f.set r v).get q = if q = r then v else f.get q := by
  cases r <;> cases q <;> rfl

theorem State.reg_congr {s t : State} (h : t.regs = s.regs) (q : Reg) : t.reg q = s.reg q := by simp [State.reg, h]

@[simp] theorem State.reg_setReg (r q : Reg) (v : Word) : (s.setReg r v).reg q = if q = r then v else s.reg q := by
  simp [State.reg]

@[simp] theorem State.reg_writeResult (r q : Reg) (v : Word) :
    (s.writeResult r v).reg q = if q = r then v else s.reg q := by
  simp [State.reg]

@[simp] theorem State.reg_trapEntry (q : Reg) : s.trapEntry.reg q = if q = .r7 then s.pc else s.reg q := by
  simp [State.reg]

@[simp] theorem State.reg_setPc (q : Reg) (v : Word) : (s.setPc v).reg q = s.reg q := rfl

@[simp] theorem State.reg_memWrite (q : Reg) (a v : Word) : (s.memWrite a v).reg q = s.reg q := rfl

@[simp] theorem State.reg_emit (q : Reg) (bs : List Byte) : (s.emit bs).reg q = s.reg q := rfl

@[simp] theorem State.reg_tick (q : Reg) : s.tick.reg q = s.reg q := rfl

@[simp] theorem State.reg_trapReturn (q : Reg) : s.trapReturn.reg q = s.reg q := rfl

/-! Reading a word of memory after an update that is no store -/

theorem State.peek_congr {s t : State} (h : t.mem = s.mem) (a : Word) : t.peek a = s.peek a := by simp [State.peek, h]

@[simp] theorem State.peek_setReg (r : Reg) (v a : Word) : (s.setReg r v).peek a = s.peek a := rfl

@[simp] theorem State.peek_setPc (v a : Word) : (s.setPc v).peek a = s.peek a := rfl

@[simp] theorem State.peek_writeResult (r : Reg) (v a : Word) : (s.writeResult r v).peek a = s.peek a := rfl

@[simp] theorem State.peek_emit (bs : List Byte) (a : Word) : (s.emit bs).peek a = s.peek a := rfl

@[simp] theorem State.peek_trapEntry (a : Word) : s.trapEntry.peek a = s.peek a := rfl

@[simp] theorem State.peek_trapReturn (a : Word) : s.trapReturn.peek a = s.peek a := rfl

@[simp] theorem State.peek_tick (a : Word) : s.tick.peek a = s.peek a := rfl

@[simp] theorem State.peek_abort (op : BitVec 4) (a : Word) : (s.abort op).peek a = s.peek a := rfl

@[simp] theorem State.peek_terminate (a : Word) : s.terminate.peek a = s.peek a := rfl

end Sys2Proof.Machine
end

