-- ==== Sys2Proof/Laws/Flags.lean ====
section
/-! SUPPORT. What the flag of a word can be, when a branch is taken, and the keyboard addresses as literals. -/

namespace Sys2Proof.Machine

theorem kbsrAddr_eq : (0xFE00 : Word) = Config.kbsrAddr := rfl

theorem kbdrAddr_eq : (0xFE02 : Word) = Config.kbdrAddr := rfl

theorem kbsrAddr_ne_kbdrAddr : Config.kbsrAddr ≠ Config.kbdrAddr := by decide

/-- The three cases of the flag, zero tested first (R24). -/
theorem flagOf_cases (v : Word) :
    (v = 0 ∧ flagOf v = .zero) ∨ (v ≠ 0 ∧ v.getLsbD 15 = true ∧ flagOf v = .negative) ∨
    (v ≠ 0 ∧ v.getLsbD 15 = false ∧ flagOf v = .positive) := by
  unfold flagOf
  by_cases h : v = 0
  · exact .inl ⟨h, by simp [h]⟩
  · cases hb : v.getLsbD 15
    · exact .inr (.inr ⟨h, rfl, by rw [if_neg h]; rfl⟩)
    · exact .inr (.inl ⟨h, rfl, by rw [if_neg h]; rfl⟩)

/-- A zero-extended byte never sets NEGATIVE (R192). -/
theorem flagOf_zext16 (b : Byte) : flagOf (zext16 b) = if b = 0 then .zero else .positive := by
  revert b; decide

/-- A branch is taken when a bit of its mask selects the flag that cc holds (R25, R141). -/
theorem branchTaken_iff (c : BitVec 3) (f : Cond) :
    branchTaken c f = true ↔
      (c.getLsbD 2 = true ∧ f = .negative) ∨ (c.getLsbD 1 = true ∧ f = .zero) ∨ (c.getLsbD 0 = true ∧ f = .positive) := by
  cases f <;> revert c <;> decide

end Sys2Proof.Machine
end

