-- ==== Sys2Proof/Laws/HostPort.lean ====
section
/-! SUPPORT. What the image loader leaves alone, and that it keeps memory canonical. -/

namespace Sys2Proof.Machine

/-- Two states that differ in memory alone. -/
abbrev OnlyMemory (s t : State) : Prop := t = { s with mem := t.mem }

theorem loadBody_only_memory (l : List Byte) (a : Nat) (s : State) : OnlyMemory s (loadBody l a s) := by
  fun_induction loadBody l a s with
  | case1 hi lo rest a s h ih => rw [OnlyMemory, ih]; rfl
  | case2 => rfl
  | case3 => rfl

theorem loadBody_wf (l : List Byte) (a : Nat) {s : State} (h : s.mem.wf) : (loadBody l a s).mem.wf := by
  fun_induction loadBody l a s with
  | case1 hi lo rest a s _ ih => exact ih (State.memWrite_wf h _ _)
  | case2 => exact h
  | case3 => exact h

theorem loadImage_only_memory (l : List Byte) (s : State) : OnlyMemory s (loadImage l s) := by
  match l with
  | [] => rfl
  | [_] => rfl
  | _ :: _ :: body => exact loadBody_only_memory body _ s

theorem loadImage_wf (l : List Byte) {s : State} (h : s.mem.wf) : (loadImage l s).mem.wf := by
  match l with
  | [] => exact h
  | [_] => exact h
  | _ :: _ :: body => exact loadBody_wf body _ h

theorem loadImages_cons (i : List Byte) (is : List (List Byte)) (s : State) :
    loadImages (i :: is) s = loadImages is (loadImage i s) := rfl

theorem loadImages_only_memory (is : List (List Byte)) (s : State) : OnlyMemory s (loadImages is s) := by
  induction is generalizing s with
  | nil => rfl
  | cons i is ih => rw [loadImages_cons, OnlyMemory, ih, loadImage_only_memory i s]

theorem loadImages_wf (is : List (List Byte)) {s : State} (h : s.mem.wf) : (loadImages is s).mem.wf := by
  induction is generalizing s with
  | nil => exact h
  | cons i is ih => exact ih (loadImage_wf i h)

end Sys2Proof.Machine
end

