-- ==== Sys2Proof/Laws/PerInstr.lean ====
section
/-! SUPPORT. Statements about every instruction as syntax, one lemma per constructor. -/

namespace Sys2Proof.Laws

/-- The opcode field of an instruction's word holds its opcode's number (R80, R81). -/
def EncodedOpcode.Statement (i : Instr) : Prop := bits (encode i) 12 4 = Opcode.toBits i.opcode

theorem EncodedOpcode.addR (d a b : Reg) : EncodedOpcode.Statement (.addR d a b) := by
  simp (disch := omega) [EncodedOpcode.Statement, encode, Instr.opcode, placeOp, placeHigh, placeMid,
    bits_place_same, bits_place_disjoint]

theorem EncodedOpcode.addI (d a : Reg) (i : BitVec 5) : EncodedOpcode.Statement (.addI d a i) := by
  simp (disch := omega) [EncodedOpcode.Statement, encode, Instr.opcode, placeOp, placeHigh, placeMid,
    bits_place_same, bits_place_disjoint]

theorem EncodedOpcode.andR (d a b : Reg) : EncodedOpcode.Statement (.andR d a b) := by
  simp (disch := omega) [EncodedOpcode.Statement, encode, Instr.opcode, placeOp, placeHigh, placeMid,
    bits_place_same, bits_place_disjoint]

theorem EncodedOpcode.andI (d a : Reg) (i : BitVec 5) : EncodedOpcode.Statement (.andI d a i) := by
  simp (disch := omega) [EncodedOpcode.Statement, encode, Instr.opcode, placeOp, placeHigh, placeMid,
    bits_place_same, bits_place_disjoint]

theorem EncodedOpcode.not (d a : Reg) : EncodedOpcode.Statement (.not d a) := by
  simp (disch := omega) [EncodedOpcode.Statement, encode, Instr.opcode, placeOp, placeHigh, placeMid,
    bits_place_same, bits_place_disjoint]

theorem EncodedOpcode.br (c : BitVec 3) (o : BitVec 9) : EncodedOpcode.Statement (.br c o) := by
  simp (disch := omega) [EncodedOpcode.Statement, encode, Instr.opcode, placeOp,
    bits_place_same, bits_place_disjoint]

theorem EncodedOpcode.jmp (b : Reg) : EncodedOpcode.Statement (.jmp b) := by
  simp (disch := omega) [EncodedOpcode.Statement, encode, Instr.opcode, placeOp, placeMid,
    bits_place_same, bits_place_disjoint]

theorem EncodedOpcode.jsr (o : BitVec 11) : EncodedOpcode.Statement (.jsr o) := by
  simp (disch := omega) [EncodedOpcode.Statement, encode, Instr.opcode, placeOp,
    bits_place_same, bits_place_disjoint]

theorem EncodedOpcode.jsrr (b : Reg) : EncodedOpcode.Statement (.jsrr b) := by
  simp (disch := omega) [EncodedOpcode.Statement, encode, Instr.opcode, placeOp, placeMid,
    bits_place_same, bits_place_disjoint]

theorem EncodedOpcode.ld (d : Reg) (o : BitVec 9) : EncodedOpcode.Statement (.ld d o) := by
  simp (disch := omega) [EncodedOpcode.Statement, encode, Instr.opcode, placeOp, placeHigh,
    bits_place_same, bits_place_disjoint]

theorem EncodedOpcode.ldi (d : Reg) (o : BitVec 9) : EncodedOpcode.Statement (.ldi d o) := by
  simp (disch := omega) [EncodedOpcode.Statement, encode, Instr.opcode, placeOp, placeHigh,
    bits_place_same, bits_place_disjoint]

theorem EncodedOpcode.ldr (d b : Reg) (o : BitVec 6) : EncodedOpcode.Statement (.ldr d b o) := by
  simp (disch := omega) [EncodedOpcode.Statement, encode, Instr.opcode, placeOp, placeHigh, placeMid,
    bits_place_same, bits_place_disjoint]

theorem EncodedOpcode.lea (d : Reg) (o : BitVec 9) : EncodedOpcode.Statement (.lea d o) := by
  simp (disch := omega) [EncodedOpcode.Statement, encode, Instr.opcode, placeOp, placeHigh,
    bits_place_same, bits_place_disjoint]

theorem EncodedOpcode.st (d : Reg) (o : BitVec 9) : EncodedOpcode.Statement (.st d o) := by
  simp (disch := omega) [EncodedOpcode.Statement, encode, Instr.opcode, placeOp, placeHigh,
    bits_place_same, bits_place_disjoint]

theorem EncodedOpcode.sti (d : Reg) (o : BitVec 9) : EncodedOpcode.Statement (.sti d o) := by
  simp (disch := omega) [EncodedOpcode.Statement, encode, Instr.opcode, placeOp, placeHigh,
    bits_place_same, bits_place_disjoint]

theorem EncodedOpcode.str (d b : Reg) (o : BitVec 6) : EncodedOpcode.Statement (.str d b o) := by
  simp (disch := omega) [EncodedOpcode.Statement, encode, Instr.opcode, placeOp, placeHigh, placeMid,
    bits_place_same, bits_place_disjoint]

theorem EncodedOpcode.trap (v : BitVec 8) : EncodedOpcode.Statement (.trap v) := by
  simp (disch := omega) [EncodedOpcode.Statement, encode, encodeTrap, Instr.opcode, placeOp,
    bits_place_same, bits_place_disjoint]

theorem EncodedOpcode.rti : EncodedOpcode.Statement .rti := rfl

theorem EncodedOpcode.res : EncodedOpcode.Statement .res := rfl

theorem EncodedOpcode.getc : EncodedOpcode.Statement .getc := rfl

theorem EncodedOpcode.out : EncodedOpcode.Statement .out := rfl

theorem EncodedOpcode.puts : EncodedOpcode.Statement .puts := rfl

theorem EncodedOpcode.in_ : EncodedOpcode.Statement .in_ := rfl

theorem EncodedOpcode.putsp : EncodedOpcode.Statement .putsp := rfl

theorem EncodedOpcode.halt : EncodedOpcode.Statement .halt := rfl

end Sys2Proof.Laws
end

