-- ==== Sys2Proof/Laws/Poll.lean ====
section
/-! SUPPORT. What a keyboard poll, a MemRead and a fetch can do. -/

namespace Sys2Proof.Machine

variable (s : State)

/-- Everything a keyboard poll can do: it takes the next byte of input, or it finds none (R30, R56). -/
theorem State.kbPoll_cases :
    (∃ b rest, s.inq = b :: rest ∧ Config.avail s.polls = true ∧
      s.kbPoll = (State.memWrite Config.kbsrAddr Config.kbsrReady
        { s with inq := rest, polls := s.polls + 1 }).memWrite Config.kbdrAddr (zext16 b)) ∨
    ((s.inq = [] ∨ Config.avail s.polls = false) ∧
      s.kbPoll = State.memWrite Config.kbsrAddr 0 { s with polls := s.polls + 1 }) := by
  unfold State.kbPoll State.inPoll
  cases h : s.inq with
  | nil => exact .inr ⟨.inl rfl, rfl⟩
  | cons b rest =>
    cases ha : Config.avail s.polls
    · exact .inr ⟨.inr rfl, by simp⟩
    · exact .inl ⟨b, rest, rfl, rfl, by simp⟩

@[simp] theorem State.kbPoll_regs : s.kbPoll.regs = s.regs := by
  rcases s.kbPoll_cases with ⟨b, rest, -, -, h⟩ | ⟨-, h⟩ <;> rw [h] <;> rfl

@[simp] theorem State.kbPoll_pc : s.kbPoll.pc = s.pc := by
  rcases s.kbPoll_cases with ⟨b, rest, -, -, h⟩ | ⟨-, h⟩ <;> rw [h] <;> rfl

@[simp] theorem State.kbPoll_cc : s.kbPoll.cc = s.cc := by
  rcases s.kbPoll_cases with ⟨b, rest, -, -, h⟩ | ⟨-, h⟩ <;> rw [h] <;> rfl

@[simp] theorem State.kbPoll_run : s.kbPoll.run = s.run := by
  rcases s.kbPoll_cases with ⟨b, rest, -, -, h⟩ | ⟨-, h⟩ <;> rw [h] <;> rfl

@[simp] theorem State.kbPoll_out : s.kbPoll.out = s.out := by
  rcases s.kbPoll_cases with ⟨b, rest, -, -, h⟩ | ⟨-, h⟩ <;> rw [h] <;> rfl

@[simp] theorem State.kbPoll_service : s.kbPoll.service = s.service := by
  rcases s.kbPoll_cases with ⟨b, rest, -, -, h⟩ | ⟨-, h⟩ <;> rw [h] <;> rfl

@[simp] theorem State.kbPoll_termReq : s.kbPoll.termReq = s.termReq := by
  rcases s.kbPoll_cases with ⟨b, rest, -, -, h⟩ | ⟨-, h⟩ <;> rw [h] <;> rfl

@[simp] theorem State.afterRead_regs (a : Word) : (s.afterRead a).regs = s.regs := by
  unfold State.afterRead; split <;> simp

@[simp] theorem State.afterRead_pc (a : Word) : (s.afterRead a).pc = s.pc := by
  unfold State.afterRead; split <;> simp

@[simp] theorem State.afterRead_cc (a : Word) : (s.afterRead a).cc = s.cc := by
  unfold State.afterRead; split <;> simp

@[simp] theorem State.afterRead_run (a : Word) : (s.afterRead a).run = s.run := by
  unfold State.afterRead; split <;> simp

@[simp] theorem State.afterRead_out (a : Word) : (s.afterRead a).out = s.out := by
  unfold State.afterRead; split <;> simp

@[simp] theorem State.afterRead_service (a : Word) : (s.afterRead a).service = s.service := by
  unfold State.afterRead; split <;> simp

@[simp] theorem State.afterRead_termReq (a : Word) : (s.afterRead a).termReq = s.termReq := by
  unfold State.afterRead; split <;> simp

@[simp] theorem State.kbPoll_polls : s.kbPoll.polls = s.polls + 1 := by
  rcases s.kbPoll_cases with ⟨b, rest, -, -, h⟩ | ⟨-, h⟩ <;> rw [h] <;> rfl

@[simp] theorem State.reg_kbPoll (r : Reg) : s.kbPoll.reg r = s.reg r := State.reg_congr s.kbPoll_regs r

@[simp] theorem State.reg_afterRead (a : Word) (r : Reg) : (s.afterRead a).reg r = s.reg r :=
  State.reg_congr (s.afterRead_regs a) r

/-- A poll only takes bytes off the front of the input (R30). -/
theorem State.kbPoll_inq_suffix : s.kbPoll.inq <:+ s.inq := by
  rcases s.kbPoll_cases with ⟨b, rest, hi, -, h⟩ | ⟨-, h⟩ <;> rw [h]
  · rw [hi]; exact List.suffix_cons b rest
  · exact List.suffix_refl _

/-- A poll changes no word but KBSR and KBDR (R56). -/
theorem State.kbPoll_peek {a : Word} (hs : a ≠ Config.kbsrAddr) (hd : a ≠ Config.kbdrAddr) :
    s.kbPoll.peek a = s.peek a := by
  rcases s.kbPoll_cases with ⟨b, rest, -, -, h⟩ | ⟨-, h⟩ <;> rw [h]
  · rw [State.peek_memWrite, if_neg hd, State.peek_memWrite, if_neg hs]; rfl
  · rw [State.peek_memWrite, if_neg hs]; rfl

theorem State.kbPoll_wf {s : State} (h : s.mem.wf) : s.kbPoll.mem.wf := by
  rcases s.kbPoll_cases with ⟨b, rest, -, -, e⟩ | ⟨-, e⟩ <;> rw [e]
  · exact State.memWrite_wf (State.memWrite_wf (s := { s with inq := rest, polls := s.polls + 1 }) h _ _) _ _
  · exact State.memWrite_wf (s := { s with polls := s.polls + 1 }) h _ _

/-- Every read but one of KBSR is plain: no side effect (R55, R58). -/
theorem State.afterRead_plain {a : Word} (h : a ≠ Config.kbsrAddr) : s.afterRead a = s := if_neg h

@[simp] theorem State.afterRead_kbsr : s.afterRead Config.kbsrAddr = s.kbPoll := if_pos rfl

theorem State.afterRead_inq_suffix (a : Word) : (s.afterRead a).inq <:+ s.inq := by
  unfold State.afterRead; split
  · exact s.kbPoll_inq_suffix
  · exact List.suffix_refl _

theorem State.afterRead_peek (a : Word) {b : Word} (hs : b ≠ Config.kbsrAddr) (hd : b ≠ Config.kbdrAddr) :
    (s.afterRead a).peek b = s.peek b := by
  unfold State.afterRead; split
  · exact s.kbPoll_peek hs hd
  · rfl

theorem State.afterRead_wf {s : State} (h : s.mem.wf) (a : Word) : (s.afterRead a).mem.wf := by
  unfold State.afterRead; split
  · exact State.kbPoll_wf h
  · exact h

@[simp] theorem State.memRead_fst (a : Word) : (s.memRead a).1 = (s.afterRead a).peek a := rfl

@[simp] theorem State.memRead_snd (a : Word) : (s.memRead a).2 = s.afterRead a := rfl

/-- Every MemRead of KBSR returns 0x0000 or 0x8000 (R60). -/
theorem State.memRead_kbsr_value : (s.memRead Config.kbsrAddr).1 = 0x0000 ∨ (s.memRead Config.kbsrAddr).1 = 0x8000 := by
  rw [State.memRead_fst, State.afterRead_kbsr]
  rcases s.kbPoll_cases with ⟨b, rest, -, -, h⟩ | ⟨-, h⟩ <;> rw [h]
  · right
    rw [State.peek_memWrite, if_neg (by decide), State.peek_memWrite, if_pos rfl]; rfl
  · left
    rw [State.peek_memWrite, if_pos rfl]

@[simp] theorem State.fetch_fst : s.fetch.1 = (s.afterRead s.pc).peek s.pc := rfl

@[simp] theorem State.fetch_snd : s.fetch.2 = (s.afterRead s.pc).setPc (s.pc + 1) := rfl

@[simp] theorem State.indirect9_fst (o : BitVec 9) : (s.indirect9 o).1 = (s.afterRead (s.pcRel9 o)).peek (s.pcRel9 o) := rfl

@[simp] theorem State.indirect9_snd (o : BitVec 9) : (s.indirect9 o).2 = s.afterRead (s.pcRel9 o) := rfl

end Sys2Proof.Machine
end

