-- ==== Sys2Proof/Laws/Trap.lean ====
section
/-! SUPPORT. What the string walk and the services can do. -/

namespace Sys2Proof.Machine

/-! ### The string walk -/

/-- The walk finds a string exactly when a zero word comes within its fuel, and then it is the bytes of the words before
the first zero word (R194, R196). -/
theorem walkString_found (f : Word → List Byte) (s : State) {fuel n : Nat} {p : Word} (hn : n < fuel)
    (hz : s.peek (p + BitVec.ofNat 16 n) = 0) (hb : ∀ k, k < n → s.peek (p + BitVec.ofNat 16 k) ≠ 0) :
    walkString f s fuel p = some ((List.range n).flatMap fun k => f (s.peek (p + BitVec.ofNat 16 k))) := by
  induction n generalizing fuel p with
  | zero =>
    obtain ⟨fuel, rfl⟩ : ∃ m, fuel = m + 1 := ⟨fuel - 1, by omega⟩
    have : s.peek p = 0 := by simpa using hz
    simp [walkString, this]
  | succ n ih =>
    obtain ⟨fuel, rfl⟩ : ∃ m, fuel = m + 1 := ⟨fuel - 1, by omega⟩
    have h0 : s.peek p ≠ 0 := by simpa using hb 0 (by omega)
    have step : ∀ k, p + BitVec.ofNat 16 (k + 1) = p + 1 + BitVec.ofNat 16 k := fun k => by
      rw [BitVec.ofNat_add, BitVec.add_comm (BitVec.ofNat 16 k), ← BitVec.add_assoc]; rfl
    rw [walkString, if_neg h0, ih (p := p + 1) (by omega) (step n ▸ hz) (fun k hk => step k ▸ hb (k + 1) (by omega))]
    simp only [Option.map_some, List.range_succ_eq_map, List.flatMap_cons, List.flatMap_map, step]
    simp

/-- The walk fails only if none of its words is zero. -/
theorem walkString_none {f : Word → List Byte} {s : State} {fuel : Nat} {p : Word} (h : walkString f s fuel p = none) :
    ∀ k, k < fuel → s.peek (p + BitVec.ofNat 16 k) ≠ 0 := by
  intro k hk hz
  classical
  have hex : ∃ n, s.peek (p + BitVec.ofNat 16 n) = 0 := ⟨k, hz⟩
  have hle : Nat.find hex ≤ k := Nat.find_le hz
  rw [walkString_found f s (lt_of_le_of_lt hle hk) (Nat.find_spec hex) fun j hj => Nat.find_min hex hj] at h
  exact absurd h (by simp)

/-- The whole walk fails only in a memory without a zero word. -/
theorem wholeString_none {f : Word → List Byte} {s : State} {p : Word} (h : wholeString f s p = none) (a : Word) :
    s.peek a ≠ 0 := by
  have := walkString_none h (a - p).toNat (a - p).isLt
  rwa [BitVec.ofNat_toNat, BitVec.setWidth_eq, BitVec.add_comm, BitVec.sub_add_cancel] at this

/-- In a memory without a zero word the walk fails whatever its fuel. -/
theorem walkString_eq_none (f : Word → List Byte) {s : State} (h : ∀ a, s.peek a ≠ 0) (fuel : Nat) (p : Word) :
    walkString f s fuel p = none := by
  induction fuel generalizing p with
  | zero => rfl
  | succ n ih => rw [walkString, if_neg (h p), ih]; rfl

theorem walkString_congr (f : Word → List Byte) {s t : State} (h : t.mem = s.mem) (fuel : Nat) (p : Word) :
    walkString f t fuel p = walkString f s fuel p := by
  induction fuel generalizing p with
  | zero => rfl
  | succ n ih => simp only [walkString, State.peek_congr h, ih]

theorem wholeString_congr (f : Word → List Byte) {s t : State} (h : t.mem = s.mem) (p : Word) :
    wholeString f t p = wholeString f s p := walkString_congr f h _ p

/-! ### The services -/

/-- Everything GETC's read can do (R192, R31). -/
theorem serviceGetc_cases (s : State) :
    (s.inq = [] ∧ serviceGetc s = { s with service := .getcWait }) ∨
    (∃ b rest, s.inq = b :: rest ∧ serviceGetc s =
      { s with inq := rest, regs := s.regs.set .r0 (zext16 b), cc := flagOf (zext16 b), service := .idle }) := by
  unfold serviceGetc State.inRead
  cases h : s.inq with
  | nil => exact .inl ⟨rfl, by simp⟩
  | cons b rest => exact .inr ⟨b, rest, rfl, rfl⟩

/-- Everything IN's read can do (R195, R31). -/
theorem serviceInRead_cases (s : State) :
    (s.inq = [] ∧ serviceInRead s = { s with service := .inWait }) ∨
    (∃ b rest, s.inq = b :: rest ∧ serviceInRead s =
      { s with inq := rest, out := s.out ++ [b], regs := s.regs.set .r0 (zext16 b), cc := flagOf (zext16 b), service := .idle }) := by
  unfold serviceInRead State.inRead
  cases h : s.inq with
  | nil => exact .inl ⟨rfl, by simp⟩
  | cons b rest => exact .inr ⟨b, rest, rfl, rfl⟩

/-- Everything PUTS can do (R194). -/
theorem servicePuts_cases (s : State) :
    (∃ bs, wholeString putsBytes s (s.reg .r0) = some bs ∧ servicePuts s = s.emit bs) ∨
    ((∀ a, s.peek a ≠ 0) ∧ servicePuts s = { s with service := .putsLoop (s.reg .r0) }) := by
  unfold servicePuts
  cases h : wholeString putsBytes s (s.reg .r0) with
  | some bs => exact .inl ⟨bs, rfl, rfl⟩
  | none => exact .inr ⟨wholeString_none h, rfl⟩

/-- Everything PUTSP can do (R196). -/
theorem servicePutsp_cases (s : State) :
    (∃ bs, wholeString putspBytes s (s.reg .r0) = some bs ∧ servicePutsp s = s.emit bs) ∨
    ((∀ a, s.peek a ≠ 0) ∧ servicePutsp s = { s with service := .putspLoop (s.reg .r0) }) := by
  unfold servicePutsp
  cases h : wholeString putspBytes s (s.reg .r0) with
  | some bs => exact .inl ⟨bs, rfl, rfl⟩
  | none => exact .inr ⟨wholeString_none h, rfl⟩

/-- What a turn of a string loop does where there is a word to emit (R194, R196). -/
theorem stringTurn_nonzero (f : Word → List Byte) (again : Word → ServiceState) {p : Word} {s : State} (h : s.peek p ≠ 0) :
    stringTurn f again p s = { s.emit (f (s.peek p)) with service := again (p + 1) } := if_neg h

/-- The dispatcher's rows (R191). -/
theorem runService_rows (s : State) :
    runService 0x20 s = serviceGetc s ∧ runService 0x21 s = serviceOut s ∧ runService 0x22 s = servicePuts s ∧
    runService 0x23 s = serviceIn s ∧ runService 0x24 s = servicePutsp s ∧ runService 0x25 s = serviceHalt s :=
  ⟨rfl, rfl, rfl, rfl, rfl, rfl⟩

/-- A vector that selects no service does nothing (R198). -/
theorem runService_unknown {v : BitVec 8} (h : isServiceVector v = false) (s : State) : runService v s = s := by
  have : serviceOf v = none := by revert v; decide
  simp [runService, this]

/-- The vector of a service (R191). -/
theorem serviceOf_vector {v : BitVec 8} {x : Service} (h : serviceOf v = some x) :
    v = (match x with | .getc => 0x20 | .out => 0x21 | .puts => 0x22 | .in_ => 0x23 | .putsp => 0x24 | .halt => 0x25) := by
  revert v; cases x <;> decide

/-- What every service has in common: it touches neither pc nor memory, no register but R0, and that and cc only for GETC
and IN; output grows at its end, input shrinks from its front, and HALT alone changes the execution state (R191 to R200). -/
theorem runService_effect (v : BitVec 8) (s : State) :
    (runService v s).pc = s.pc ∧ (runService v s).mem = s.mem ∧ (∀ r, r ≠ .r0 → (runService v s).reg r = s.reg r) ∧
    (v ≠ 0x20 → v ≠ 0x23 → (runService v s).regs = s.regs ∧ (runService v s).cc = s.cc ∧ (runService v s).inq = s.inq) ∧
    (runService v s).polls = s.polls ∧ (runService v s).termReq = s.termReq ∧
    (runService v s).run = (if v = 0x25 then .halted else s.run) ∧
    s.out <+: (runService v s).out ∧ (runService v s).inq <:+ s.inq := by
  unfold runService
  cases h : serviceOf v with
  | none =>
    have : v ≠ 37#8 := by rintro rfl; simp [serviceOf] at h
    simp [this]
  | some x =>
    have hv := serviceOf_vector h
    cases x <;> simp only at hv <;> subst hv <;> simp only
    · rcases serviceGetc_cases s with ⟨hi, h⟩ | ⟨b, rest, hi, h⟩ <;> rw [h]
      · simp [State.reg]
      · simp +contextual [State.reg, hi]
    · simp [serviceOut]
    · rcases servicePuts_cases s with ⟨bs, _, h⟩ | ⟨_, h⟩ <;> rw [h]
      · simp
      · simp [State.reg]
    · unfold serviceIn
      rcases serviceInRead_cases (s.emit Config.inPrompt) with ⟨hi, h⟩ | ⟨b, rest, hi, h⟩ <;> rw [h]
      · simp [State.reg]
      · have : s.inq = b :: rest := hi
        simp +contextual [State.reg, this]
    · rcases servicePutsp_cases s with ⟨bs, _, h⟩ | ⟨_, h⟩ <;> rw [h]
      · simp
      · simp [State.reg]
    · simp [serviceHalt, State.reg]

/-- The flag after a service: recomputed from R0 when GETC or IN took a byte, else untouched (R192, R195, C2). -/
theorem runService_flag (v : BitVec 8) (s : State) :
    (((v = 0x20 ∨ v = 0x23) ∧ s.inq ≠ []) ∧ (runService v s).cc = flagOf ((runService v s).reg .r0)) ∨
    (¬ ((v = 0x20 ∨ v = 0x23) ∧ s.inq ≠ []) ∧ (runService v s).regs = s.regs ∧ (runService v s).cc = s.cc) := by
  by_cases h : v = 0x20 ∨ v = 0x23
  · rcases h with rfl | rfl
    · rcases serviceGetc_cases s with ⟨hi, h⟩ | ⟨b, rest, hi, h⟩ <;> rw [(runService_rows s).1, h]
      · exact .inr ⟨fun h => absurd hi h.2, rfl, rfl⟩
      · exact .inl ⟨by simp [hi], by simp [State.reg]⟩
    · rw [(runService_rows s).2.2.2.1, serviceIn]
      rcases serviceInRead_cases (s.emit Config.inPrompt) with ⟨hi, h⟩ | ⟨b, rest, hi, h⟩ <;> rw [h] <;>
        have hi : s.inq = _ := hi
      · exact .inr ⟨fun h => absurd hi h.2, rfl, rfl⟩
      · exact .inl ⟨by simp [hi], by simp [State.reg]⟩
  · obtain ⟨hg, hin⟩ := not_or.mp h
    obtain ⟨hr, hc, -⟩ := (runService_effect v s).2.2.2.1 hg hin
    exact .inr ⟨fun e => h e.1, hr, hc⟩

end Sys2Proof.Machine
end

