-- ==== Sys2Proof/Laws/Run.lean ====
section
/-! SUPPORT. What a step and a run can do. -/

namespace Sys2Proof.Machine

/-- Every instruction answers a next state: no fault and no refusal comes from a meaning. -/
theorem exec_next (i : Instr) (s : State) : ∃ t, exec i s = .next t := by
  cases i <;> exact ⟨_, rfl⟩

/-- At an instruction boundary where no TERM_REQ lands, a step runs one instruction (R97). -/
theorem step_boundary {s : State} (hr : s.run = .running) (hs : s.service = .idle) (ht : s.termReq ≠ some 0) :
    step s = runInstr s.tick := by
  have : s.termDue = false := by simpa [State.termDue] using ht
  simp [step, hr, hs, this]

/-- Everything a step to a next state can do (R97, R245): end by TERM_REQ at a boundary, run one instruction, or take one
turn of a service that has not completed. -/
theorem step_cases {s t : State} (h : step s = .next t) :
    s.run = .running ∧
    ((s.service = .idle ∧ s.termReq = some 0 ∧ t = s.terminate) ∨
     (s.service = .idle ∧ s.termReq ≠ some 0 ∧
       exec (decode ((s.tick.afterRead s.pc).peek s.pc)) ((s.tick.afterRead s.pc).setPc (s.pc + 1)) = .next t) ∨
     (s.service ≠ .idle ∧ t = serviceTurn s)) := by
  cases hr : s.run with
  | running =>
    refine ⟨rfl, ?_⟩
    cases hs : s.service with
    | idle =>
      by_cases ht : s.termReq = some 0
      · have : s.termDue = true := by simp [State.termDue, ht]
        simp only [step, hr, hs, this, if_true, Host.Outcome.next.injEq] at h
        exact .inl ⟨rfl, ht, h.symm⟩
      · rw [step_boundary hr hs ht] at h
        exact .inr (.inl ⟨rfl, ht, h⟩)
    | getcWait | inWait | putsLoop p | putspLoop p =>
      simp only [step, hr, hs, Host.Outcome.next.injEq] at h
      exact .inr (.inr ⟨by simp, h.symm⟩)
  | halted | terminated | aborted op addr => simp [step, hr] at h

/-- A run of one more step, when the first gives a next state. -/
theorem run_succ (M : Host.Core) (k : Nat) (s t : M.State) (h : M.step s = .next t) : M.run (k + 1) s = M.run k t := by
  rw [Host.Core.run, h]

theorem core_run_succ {s t : State} (h : step s = .next t) (k : Nat) :
    Host.Core.run Sys2Proof.core (k + 1) s = Host.Core.run Sys2Proof.core k t :=
  run_succ Sys2Proof.core k s t h

end Sys2Proof.Machine
end

