-- ==== Sys2Proof/Tests/Slice0.lean ====
section
/-! SUPPORT. Tests: the vectors of 95_test_vectors.md (their ids stand beside them), the smoke tests of WellFormed, and a
witness for the hypotheses of each statement. Expected results come from that file or from the rules named. -/

namespace Sys2Proof.Tests

open Sys2Proof.Machine Sys2Proof.Claims

/-! ### Helpers -/

/-- A memory from a few cells. -/
def cells (l : List (Nat × Word)) : Memory := l.foldl (fun m c => m.write c.1 c.2) []

/-- The start state of a vector: reset with empty input, then pc, memory words and registers as given. -/
def st (pc : Word) (mem : List (Nat × Word)) (regs : List (Reg × Word) := []) (cc : Cond := .zero) (inq : List Byte := []) :
    State :=
  regs.foldl (fun s c => s.setReg c.1 c.2) { State.reset with pc := pc, mem := cells mem, cc := cc, inq := inq }

/-- Whether one step gives a next state with a property. -/
def after (s : State) (p : State → Bool) : Bool :=
  match step s with
  | .next t => p t
  | _ => false

/-! ### WellFormed smoke tests: the one check refuses each ill-formed term, and nothing beside it -/

theorem test_wellFormed_refuses_service_vectors :
    ¬ (Instr.trap 0x20).WellFormed ∧ ¬ (Instr.trap 0x21).WellFormed ∧ ¬ (Instr.trap 0x22).WellFormed ∧
    ¬ (Instr.trap 0x23).WellFormed ∧ ¬ (Instr.trap 0x24).WellFormed ∧ ¬ (Instr.trap 0x25).WellFormed := by decide

theorem test_wellFormed_accepts_other_vectors :
    (Instr.trap 0x00).WellFormed ∧ (Instr.trap 0x1F).WellFormed ∧ (Instr.trap 0x26).WellFormed ∧
    (Instr.trap 0xFF).WellFormed := by decide

/-! ### Decoding: a word written out from R82's bit strings for every constructor -/

theorem test_decode_operate :
    decode 0b0001_011_001_0_00_010 = .addR .r3 .r1 .r2 ∧ decode 0b0001_000_000_1_11111 = .addI .r0 .r0 0b11111 ∧
    decode 0b0101_010_000_0_00_001 = .andR .r2 .r0 .r1 ∧ decode 0b0101_000_100_1_10000 = .andI .r0 .r4 0b10000 ∧
    decode 0b1001_001_110_111111 = .not .r1 .r6 := by decide

theorem test_decode_control :
    decode 0b0000_010_111111101 = .br 0b010 0b111111101 ∧ decode 0b1100_000_010_000000 = .jmp .r2 ∧
    decode 0b0100_1_00000000010 = .jsr 0b00000000010 ∧ decode 0b0100_0_00_011_000000 = .jsrr .r3 := by decide

theorem test_decode_memory :
    decode 0b0010_001_000000010 = .ld .r1 0b000000010 ∧ decode 0b1010_010_000000101 = .ldi .r2 0b000000101 ∧
    decode 0b0110_001_010_111111 = .ldr .r1 .r2 0b111111 ∧ decode 0b1110_000_111111111 = .lea .r0 0b111111111 ∧
    decode 0b0011_011_111111110 = .st .r3 0b111111110 ∧ decode 0b1011_101_000000011 = .sti .r5 0b000000011 ∧
    decode 0b0111_001_000_000001 = .str .r1 .r0 0b000001 := by decide

theorem test_decode_trap :
    decode 0b1111_0000_00100110 = .trap 0x26 ∧ decode 0b1111_0000_00100000 = .getc ∧ decode 0b1111_0000_00100001 = .out ∧
    decode 0b1111_0000_00100010 = .puts ∧ decode 0b1111_0000_00100011 = .in_ ∧ decode 0b1111_0000_00100100 = .putsp ∧
    decode 0b1111_1111_00100101 = .halt := by decide

theorem test_decode_reserved : decode 0b1000_000000000000 = .rti ∧ decode 0b1101_111111111111 = .res := by decide

/-- The assembled words that 95_test_vectors.md gives for its notation. -/
theorem test_encode_words :
    encode (.addR .r3 .r1 .r2) = 0x1642 ∧ encode (.andI .r0 .r0 0x10) = 0x5030 ∧ encode (.not .r1 .r0) = 0x923F ∧
    encode (.br 0b010 0x1FD) = 0x05FD ∧ encode (.jmp .r7) = 0xC1C0 ∧ encode (.jsr 0x400) = 0x4C00 ∧
    encode (.jsrr .r3) = 0x40C0 ∧ encode (.ldr .r1 .r2 0x3F) = 0x62BF ∧ encode (.sti .r0 3) = 0xB003 ∧
    encode .putsp = 0xF024 := by decide

theorem test_decodeTableWord : decodeTableWord 16 0xF021 = some .out ∧ decodeTableWord 32 0xF021 = none := by decide

/-! ### Operate instructions -/

theorem test_OP1_addR : after (st 0x3000 [(0x3000, 0x1642)] [(.r1, 0x0005), (.r2, 0xFFFF)])
    (fun t => t.reg .r3 == 0x0004 && t.cc == .positive && t.pc == 0x3001) = true := by decide

theorem test_OP3_addI_overflow : after (st 0x3000 [(0x3000, 0x1021)] [(.r0, 0x7FFF)])
    (fun t => t.reg .r0 == 0x8000 && t.cc == .negative) = true := by decide

theorem test_OP7_addI_lowest : after (st 0x3000 [(0x3000, 0x1030)])
    (fun t => t.reg .r0 == 0xFFF0 && t.cc == .negative) = true := by decide

theorem test_OP10_andR : after (st 0x3000 [(0x3000, 0x5401)] [(.r0, 0x00F0), (.r1, 0x0F3C)])
    (fun t => t.reg .r2 == 0x0030 && t.cc == .positive) = true := by decide

theorem test_OP12_andI : after (st 0x3000 [(0x3000, 0x5030)] [(.r0, 0x1234)])
    (fun t => t.reg .r0 == 0x1230 && t.cc == .positive) = true := by decide

theorem test_OP17_not_unread : after (st 0x3000 [(0x3000, 0x9200)] [(.r0, 0x7FFF)])
    (fun t => t.reg .r1 == 0x8000 && t.cc == .negative) = true := by decide

/-! ### Control transfer -/

theorem test_CT1_br_taken : after (st 0x3005 [(0x3005, 0x05FD)]) (fun t => t.pc == 0x3003) = true := by decide

theorem test_CT4b_br_wraps : after (st 0xFFFF [(0xFFFF, 0x0FFF)] [] .negative) (fun t => t.pc == 0xFFFF) = true := by decide

theorem test_CT4e_br_not_taken : after (st 0x3000 [(0x3000, 0x0C02)] [] .positive) (fun t => t.pc == 0x3001) = true := by
  decide

theorem test_CT6_jsr : after (st 0x3000 [(0x3000, 0x4C00)] [(.r7, 0x1111)] .positive)
    (fun t => t.reg .r7 == 0x3001 && t.pc == 0x2C01 && t.cc == .positive) = true := by decide

theorem test_CT7_jmp : after (st 0x3000 [(0x3000, 0xC080)] [(.r2, 0x4000)]) (fun t => t.pc == 0x4000) = true := by decide

theorem test_CT10_jsrr_r7 : after (st 0x3000 [(0x3000, 0x41C0)] [(.r7, 0x5000)])
    (fun t => t.reg .r7 == 0x3001 && t.pc == 0x3001) = true := by decide

theorem test_CT9_jsrr : after (st 0x3000 [(0x3000, 0x40C0)] [(.r3, 0x5000)])
    (fun t => t.reg .r7 == 0x3001 && t.pc == 0x5000) = true := by decide

/-! ### Loads and stores -/

theorem test_LS1_ld : after (st 0x3000 [(0x3000, 0x2202), (0x3003, 0x8001)])
    (fun t => t.reg .r1 == 0x8001 && t.cc == .negative) = true := by decide

theorem test_LS2_ldi : after (st 0x2FFF [(0x2FFF, 0xA405), (0x3005, 0x4000), (0x4000, 0x1234)])
    (fun t => t.reg .r2 == 0x1234 && t.cc == .positive && t.pc == 0x3000) = true := by decide

theorem test_LS4_ldr_wraps : after (st 0x3000 [(0x3000, 0x62C1), (0x0000, 0x7FFF)] [(.r3, 0xFFFF)])
    (fun t => t.reg .r1 == 0x7FFF && t.cc == .positive) = true := by decide

theorem test_LS7_lea_wraps : after (st 0x0000 [(0x0000, 0xE1FE)])
    (fun t => t.reg .r0 == 0xFFFF && t.cc == .negative) = true := by decide

theorem test_LS8_st : after (st 0x3010 [(0x3010, 0x37FE)] [(.r3, 0xBEEF)] .negative)
    (fun t => t.peek 0x300F == 0xBEEF && t.cc == .negative) = true := by decide

theorem test_LS9_str_value : after (st 0x3000 [(0x3000, 0x7241)] [(.r1, 0x4000)])
    (fun t => t.peek 0x4001 == 0x4000) = true := by decide

theorem test_LS10_sti : after (st 0x3004 [(0x3004, 0xB003), (0x3008, 0x4000)] [(.r0, 0x0041)])
    (fun t => t.peek 0x4000 == 0x0041 && t.peek 0x3008 == 0x4000) = true := by decide

/-! ### The keyboard -/

theorem test_MM3_poll_no_input : after (st 0x3000 [(0x3000, 0x6180), (0xFE02, 0x0077)] [(.r6, 0xFE00)])
    (fun t => t.reg .r0 == 0x0000 && t.cc == .zero && t.peek 0xFE00 == 0x0000 && t.peek 0xFE02 == 0x0077) = true := by decide

theorem test_MM8_sti_pointer_polls : after (st 0xFDF0 [(0xFDF0, 0xB00F), (0xFE00, 0x4000)] [(.r0, 0x5555)])
    (fun t => t.peek 0x0000 == 0x5555 && t.peek 0x4000 == 0x0000 && t.peek 0xFE00 == 0x0000) = true := by decide

theorem test_MM10_puts_does_not_poll :
    after (st 0x3000 [(0x3000, 0xF022), (0xFE00, 0x0041), (0xFE01, 0x0042)] [(.r0, 0xFE00)] .zero [0x51])
    (fun t => t.out == [0x41, 0x42] && t.peek 0xFE00 == 0x0041 && t.inq == [0x51]) = true := by decide

/-- MM-1 and MM-2, for either draw. -/
theorem test_MM1_MM2_poll_with_input :
    let s := st 0x3000 [(0xFE00, 0x1234), (0xFE02, 0x0077)] [] .zero [0x41]
    (Config.avail s.polls = true → (s.kbPoll.peek 0xFE00, s.kbPoll.peek 0xFE02, s.kbPoll.inq) = (0x8000, 0x0041, [])) ∧
    (Config.avail s.polls = false → (s.kbPoll.peek 0xFE00, s.kbPoll.peek 0xFE02, s.kbPoll.inq) = (0x0000, 0x0077, [0x41])) := by
  intro s
  have hi : s.inq = [0x41] := rfl
  constructor <;> intro h
  · simp only [State.kbPoll, State.inPoll, hi, h, if_true]; decide
  · simp only [State.kbPoll, State.inPoll, hi, h]; decide

theorem test_CY2_fetch_polls : after (st 0xFE00 [])
    (fun t => t.pc == 0xFE01 && t.peek 0xFE00 == 0x0000 && t.run == .running) = true := by decide

theorem test_CY1_fetch_wraps : after (st 0xFFFF [(0xFFFF, 0x1021)] [(.r0, 0x0001)])
    (fun t => t.reg .r0 == 0x0002 && t.pc == 0x0000) = true := by decide

/-! ### Traps -/

theorem test_TR1_getc : after (st 0x3000 [(0x3000, 0xF020)] [] .zero [0x61])
    (fun t => t.reg .r0 == 0x0061 && t.reg .r7 == 0x3001 && t.cc == .positive && t.inq == [] && t.out == []) = true := by
  decide

theorem test_TR15_getc_waits : after (st 0x3000 [(0x3000, 0xF020)])
    (fun t => t.service == .getcWait && t.run == .running && t.reg .r0 == 0 && step t matches .next _) = true := by decide

theorem test_TR2_out : after (st 0x3003 [(0x3003, 0xF021)] [(.r0, 0x1241)] .negative)
    (fun t => t.out == [0x41] && t.reg .r7 == 0x3004 && t.pc == 0x3004 && t.cc == .negative) = true := by decide

theorem test_TR4_puts : after (st 0x3000 [(0x3000, 0xF022), (0x4000, 0x0100), (0x4001, 0x4142)] [(.r0, 0x4000)])
    (fun t => t.out == [0x00, 0x42]) = true := by decide

theorem test_TR12_puts_wraps :
    after (st 0x3000 [(0x3000, 0xF022), (0xFFFF, 0x0041), (0x0000, 0x0042)] [(.r0, 0xFFFF)])
    (fun t => t.out == [0x41, 0x42]) = true := by decide

/-- TR-5: the prompt is open, so the output is compared as a term. -/
theorem test_TR5_in : after (st 0x3000 [(0x3000, 0xF023)] [] .zero [0x79])
    (fun t => t.reg .r0 == 0x0079 && t.reg .r7 == 0x3001 && t.cc == .positive && t.inq == []) = true := by decide

theorem test_TR5_in_out : (serviceIn (st 0x3000 [] [] .zero [0x79])).out = Config.inPrompt ++ [0x79] := rfl

theorem test_TR6_putsp :
    after (st 0x3004 [(0x3004, 0xF024), (0x3006, 0x6B4F), (0x3007, 0x0021)] [(.r0, 0x3006)])
    (fun t => t.out == [0x4F, 0x6B, 0x21] && t.reg .r7 == 0x3005) = true := by decide

theorem test_TR7_putsp_low_always : after (st 0x3000 [(0x3000, 0xF024), (0x4000, 0x4100)] [(.r0, 0x4000)])
    (fun t => t.out == [0x00, 0x41]) = true := by decide

theorem test_TR8_halt : after (st 0x3007 [(0x3007, 0xF025)])
    (fun t => t.reg .r7 == 0x3008 && t.pc == 0x3008 && t.run == .halted) = true := by decide

theorem test_TR10_unknown_vector : after (st 0x3000 [(0x3000, 0xF026)] [] .negative)
    (fun t => t.reg .r7 == 0x3001 && t.pc == 0x3001 && t.cc == .negative && t.out == []) = true := by decide

/-! ### Reserved opcodes and final states -/

theorem test_RV1_rti : after (st 0x3000 [(0x3000, 0x8000)])
    (fun t => t.run == .aborted 8 0x3000 && t.pc == 0x3001 && step t matches .fault (.reservedOpcode 8 0x3000)) = true := by
  decide

theorem test_RV4_res : after (st 0x3000 [(0x3000, 0xDFFF)] [(.r7, 0x4000)])
    (fun t => t.run == .aborted 13 0x3000 && t.reg .r7 == 0x4000 && step t matches .fault (.reservedOpcode 13 0x3000)) =
      true := by decide

/-! ### Loading and fetching -/

/-- The first words of P1's image (R281). -/
theorem test_load_image : (loadImage [0x30, 0x00, 0x50, 0x20, 0x12, 0x25, 0x10] State.reset).mem =
    [(0x3000, 0x5020), (0x3001, 0x1225)] := by decide

/-- No wrap past 0xFFFF (R283). -/
theorem test_load_stops_at_top : (loadImage [0xFF, 0xFF, 0x12, 0x34, 0x56, 0x78] State.reset).mem = [(0xFFFF, 0x1234)] := by
  decide

theorem test_withFetchWord : after (State.reset.withFetchWord 16 0x1021) (fun t => t.reg .r0 == 1 && t.pc == 0x3001) = true := by
  decide

/-! ### Witnesses: states and operands that meet the hypotheses of the statements -/

/-- The words' clauses of the operate statements (R122 to R126). -/
theorem witness_operate_words :
    (fld 0x165A 15 12 = 1 ∧ fld 0x165A 5 5 = 0 ∧ fld 0x165A 11 9 = regNo .r3 ∧ fld 0x165A 8 6 = regNo .r1 ∧
      fld 0x165A 2 0 = regNo .r2) ∧
    (fld 0x103F 15 12 = 1 ∧ fld 0x103F 5 5 = 1 ∧ fld 0x103F 11 9 = regNo .r0 ∧ fld 0x103F 8 6 = regNo .r0 ∧
      fld 0x103F 4 0 = (0x1F#5).toNat) ∧
    (fld 0x5401 15 12 = 5 ∧ fld 0x5401 5 5 = 0 ∧ fld 0x5401 11 9 = regNo .r2 ∧ fld 0x5401 8 6 = regNo .r0 ∧
      fld 0x5401 2 0 = regNo .r1) ∧
    (fld 0x5030 15 12 = 5 ∧ fld 0x5030 5 5 = 1 ∧ fld 0x5030 11 9 = regNo .r0 ∧ fld 0x5030 8 6 = regNo .r0 ∧
      fld 0x5030 4 0 = (0x10#5).toNat) ∧
    (fld 0x9200 15 12 = 9 ∧ fld 0x9200 11 9 = regNo .r1 ∧ fld 0x9200 8 6 = regNo .r0) := by decide

/-- The words' clauses of the control statements (R141 to R144). -/
theorem witness_control_words :
    (fld 0x05FD 15 12 = 0 ∧ fld 0x05FD 11 9 = (0b010#3).toNat ∧ fld 0x05FD 8 0 = (0x1FD#9).toNat) ∧
    (fld 0xC1C0 15 12 = 12 ∧ fld 0xC1C0 8 6 = regNo .r7) ∧
    (fld 0x4C00 15 12 = 4 ∧ fld 0x4C00 11 11 = 1 ∧ fld 0x4C00 10 0 = (0x400#11).toNat) ∧
    (fld 0x41C0 15 12 = 4 ∧ fld 0x41C0 11 11 = 0 ∧ fld 0x41C0 8 6 = regNo .r7) := by decide

/-- The words' clauses of the memory statements (R161 to R167). -/
theorem witness_memory_words :
    (fld 0x2202 15 12 = 2 ∧ fld 0x2202 11 9 = regNo .r1 ∧ fld 0x2202 8 0 = (0x002#9).toNat) ∧
    (fld 0xA405 15 12 = 10 ∧ fld 0xA405 11 9 = regNo .r2 ∧ fld 0xA405 8 0 = (0x005#9).toNat) ∧
    (fld 0x62BF 15 12 = 6 ∧ fld 0x62BF 11 9 = regNo .r1 ∧ fld 0x62BF 8 6 = regNo .r2 ∧ fld 0x62BF 5 0 = (0x3F#6).toNat) ∧
    (fld 0xE1FF 15 12 = 14 ∧ fld 0xE1FF 11 9 = regNo .r0 ∧ fld 0xE1FF 8 0 = (0x1FF#9).toNat) ∧
    (fld 0x37FE 15 12 = 3 ∧ fld 0x37FE 11 9 = regNo .r3 ∧ fld 0x37FE 8 0 = (0x1FE#9).toNat) ∧
    (fld 0xB003 15 12 = 11 ∧ fld 0xB003 11 9 = regNo .r0 ∧ fld 0xB003 8 0 = (0x003#9).toNat) ∧
    (fld 0x7E3F 15 12 = 7 ∧ fld 0x7E3F 11 9 = regNo .r7 ∧ fld 0x7E3F 8 6 = regNo .r0 ∧ fld 0x7E3F 5 0 = (0x3F#6).toNat) := by
  decide

/-- The words' clauses of the trap and reserved statements (R191, R198, R231, R232). -/
theorem witness_trap_words :
    (fld 0xFF25 15 12 = 15 ∧ fld 0xFF25 7 0 = 0x25) ∧ (fld 0xF020 15 12 = 15 ∧ fld 0xF020 7 0 = 0x20) ∧
    (fld 0xF021 15 12 = 15 ∧ fld 0xF021 7 0 = 0x21) ∧ (fld 0xF022 15 12 = 15 ∧ fld 0xF022 7 0 = 0x22) ∧
    (fld 0xF023 15 12 = 15 ∧ fld 0xF023 7 0 = 0x23) ∧ (fld 0xF024 15 12 = 15 ∧ fld 0xF024 7 0 = 0x24) ∧
    (fld 0xF026 15 12 = 15 ∧ fld 0xF026 7 0 = (0x26#8).toNat) ∧ fld 0x8ABC 15 12 = 8 ∧ fld 0xDFFF 15 12 = 13 := by decide

/-- The vectors at the edges of the unknown ranges (R198). -/
theorem witness_UnknownVectorOnlyLinks :
    ((0x00#8).toNat < 0x20 ∧ (0x1F#8).toNat < 0x20) ∧ (0x25 < (0x26#8).toNat ∧ 0x25 < (0xFF#8).toNat) := by decide

/-- The three clauses of the flag rule, at the values of SRC-2. -/
theorem witness_FlagRule :
    (0x8000#16 ≠ 0 ∧ fld 0x8000 15 15 = 1) ∧ (0xFFFF#16 ≠ 0 ∧ fld 0xFFFF 15 15 = 1) ∧
    (0x0001#16 ≠ 0 ∧ fld 0x0001 15 15 = 0) ∧ (0x7FFF#16 ≠ 0 ∧ fld 0x7FFF 15 15 = 0) := by decide

theorem witness_EncodeThenDecode : (Instr.trap 0x26).WellFormed ∧ (Instr.addI .r7 .r0 0x10).WellFormed := by decide

theorem witness_InitialStateAfterBoot : ([[0x30, 0x00, 0xF0, 0x25]] : List (List Byte)) ≠ [] := by decide

theorem witness_InvariantAfterBoot : ∃ s, boot [some [0x30, 0x00, 0xF0, 0x25]] = some s := ⟨_, rfl⟩

theorem witness_NoStartWithoutImages :
    (none : Option (List Byte)) ∈ [some [0x30, 0x00], none] := by decide

/-- A state with one instruction, for the statements about one step. -/
def running : State := st 0x3000 [(0x3000, 0x1021)]

theorem witness_AtBoundary : AtBoundary running ∧ AtBoundary (st 0xFE00 []) ∧ AtBoundary (st 0xFE00 [] [] .zero [0x5A]) := by
  unfold AtBoundary; decide

theorem witness_StepKeepsInvariant : running.Inv ∧ ∃ t, step running = .next t := by
  refine ⟨⟨?_, ?_, ?_, ?_, ?_⟩, _, rfl⟩
  · decide
  · intro h; revert h; decide
  · intro op addr h; cases h
  · intro p h; revert h; simp [running, st, State.reset]
  · intro h; exact absurd rfl h

theorem witness_OnlyReservedOpcodesAbort : running.run = .running := rfl

theorem witness_RunningAlwaysSteps : running.run = .running ∧ (st 0x3000 [(0x3000, 0x8000)]).run = .running ∧
    { st 0x3000 [] with service := .getcWait }.run = .running := by decide

theorem witness_memRead_clauses : (0xFDFF#16 ≠ 0xFE00 ∧ 0xFE01#16 ≠ 0xFE00 ∧ 0xFE02#16 ≠ 0xFE00) ∧
    (st 0x3000 []).inq = [] ∧ (st 0x3000 [] [] .zero [0x41]).inq = 0x41 :: [] := by decide

/-- LS-14: ST R0, #0 at 0x3000, seen after the fetch, and likewise STI and STR to the next word. -/
theorem witness_StoredWordIsFetched :
    let s := st 0x3001 [(0x3010, 0x3001)] [(.r0, 0xABCD), (.r1, 0x3001)]
    AtBoundary s ∧ s.pc ≠ 0xFE00 ∧ storeAddr (.st .r0 0) s = some s.pc ∧ storeAddr (.sti .r0 0x00F) s = some s.pc ∧
    storeAddr (.str .r0 .r1 0) s = some s.pc := by
  unfold AtBoundary; decide

theorem witness_StoreThenLoad :
    let s := st 0x3001 [] [(.r0, 0xFFFF), (.r1, 0x1357)]
    s.reg .r0 + sextSpec (0x01#6) ≠ 0xFE00 ∧ ∃ t, exec (.str .r1 .r0 0x01) s = .next t := ⟨by decide, _, rfl⟩

/-- TR-12 and TR-14: a string that wraps, and the empty string. -/
theorem witness_StringAt :
    StringAt (st 0x3000 [(0xFFFF, 0x0041), (0x0000, 0x0042)] [(.r0, 0xFFFF)]) 0xFFFF 2 ∧
    StringAt (st 0x3000 [] [(.r0, 0x4000)]) 0x4000 0 := by
  unfold StringAt; decide

theorem witness_char_clauses : (st 0x3000 [] [] .zero [0x00, 0x61]).inq = 0x00 :: [0x61] ∧ (st 0x3000 []).inq = [] := by
  decide

/-- A state whose first `n` words are 1; with n = 65536, every word. -/
def onesUpTo (n : Nat) : State := { st 0x3000 [] with mem := (List.range n).map fun a => (a, 1) }

theorem read_ones (l : List Nat) {a : Nat} (h : a ∈ l) : Memory.read (l.map fun a => (a, (1 : Word))) a = 1 := by
  induction l with
  | nil => simp at h
  | cons b l ih =>
    by_cases hb : b = a
    · simp [Memory.read, hb]
    · have : a ∈ l := (List.mem_cons.mp h).resolve_left (Ne.symm hb)
      simp only [List.map_cons, Memory.read, if_neg hb]
      exact ih this

theorem peek_onesUpTo {n : Nat} {a : Word} (h : a.toNat < n) : (onesUpTo n).peek a = 1 := read_ones _ (List.mem_range.mpr h)

theorem witness_EndlessStringNeverCompletes : (∀ a, (onesUpTo 65536).peek a ≠ 0) ∧ (onesUpTo 65536).run = .running := by
  refine ⟨fun a h => ?_, rfl⟩
  rw [peek_onesUpTo a.isLt] at h
  exact absurd h (by decide)

theorem witness_FinalStates :
    ({ running with run := .halted } : State).run ≠ .running ∧ ({ running with run := .terminated } : State).run ≠ .running ∧
    ({ running with run := .aborted 8 0x3000 } : State).run ≠ .running ∧
    Reaches { running with run := .halted } { running with run := .halted } :=
  ⟨by decide, by decide, by decide, .refl _⟩

theorem witness_TerminationRequestLands :
    let s : State := { running with termReq := some 0 }
    (s.run = .running ∧ s.service = .idle ∧ s.termReq = some 0) ∧
    ({ s with service := .getcWait } : State).service = .getcWait ∧ ({ s with service := .inWait } : State).service = .inWait := by
  decide

theorem witness_InputWaitHolds :
    let s : State := { running with service := .inWait }
    (s.run = .running ∧ s.service = .inWait ∧ s.inq = [] ∧ s.termReq = none) ∧
    ({ s with termReq := some 0 } : State).termReq = some 0 ∧
    (({ s with inq := [0x61], service := .getcWait } : State).inq = 0x61 :: [] ∧ s.termReq ≠ some 0) := by decide

theorem witness_OutputGrowsInputShrinks : ∃ t, Reaches running t ∧ t ≠ running :=
  ⟨_, .tail (.refl _) rfl, by decide⟩

/-- Each kind of instruction that writes a register: a result, a link, and a character read. -/
theorem witness_RegisterAndFlagWriters :
    let s := st 0x3001 [] [] .zero [0x61]
    (∃ t, exec (.addI .r3 .r0 1) s = .next t ∧ t.reg .r3 ≠ s.reg .r3 ∧ resultReg (.addI .r3 .r0 1) s = some .r3) ∧
    (∃ t, exec (.jsr 0) s = .next t ∧ linksR7 (.jsr 0) ∧ resultReg (.jsr 0) s = none) ∧
    (∃ t, exec .getc s = .next t ∧ linksR7 .getc ∧ resultReg .getc s = some .r0) :=
  ⟨⟨_, rfl, by decide, rfl⟩, ⟨_, rfl, trivial, rfl⟩, ⟨_, rfl, trivial, rfl⟩⟩

theorem witness_OnlyBranchReadsFlag : (∀ m o, Instr.jmp .r0 ≠ .br m o) ∧
    (∃ t, exec (.jmp .r0) running = .next t) ∧ ∃ u, exec (.jmp .r0) { running with cc := .negative } = .next u :=
  ⟨fun _ _ h => (by cases h), ⟨_, rfl⟩, _, rfl⟩

theorem witness_MemoryWriters :
    (∃ t, exec (.st .r7 0) (st 0x3001 [] [(.r7, 5)]) = .next t ∧ t.peek 0x3001 ≠ (st 0x3001 [] [(.r7, 5)]).peek 0x3001) ∧
    ∃ t, exec (.ldr .r0 .r6 0) (st 0x3001 [(0xFE00, 1)] [(.r6, 0xFE00)]) = .next t ∧
      t.peek 0xFE00 ≠ (st 0x3001 [(0xFE00, 1)] [(.r6, 0xFE00)]).peek 0xFE00 :=
  ⟨⟨_, rfl, by decide⟩, _, rfl, by decide⟩

theorem witness_OnlyControlTransferWritesPc : ∃ t, exec (.jmp .r0) running = .next t ∧ t.pc ≠ running.pc :=
  ⟨_, rfl, by decide⟩

theorem witness_ZeroWordSlides : AtBoundary (st 0xFFFF []) ∧ (st 0xFFFF []).pc ≠ 0xFE00 ∧
    (st 0xFFFF []).peek (st 0xFFFF []).pc = 0x0000 := by
  unfold AtBoundary; decide

end Sys2Proof.Tests
end

section
namespace Sys2Proof.Machine

/-! The extensions of R10, as bits and as a value. -/

/-- The fill of R10 has the bit `b` at every place from `n` up, and nothing below. -/
theorem getLsbD_fill (b : Bool) (n i : Nat) (hi : i < 16) :
    (if b then 0xFFFF#16 <<< n else 0).getLsbD i = (b && decide (n ≤ i)) := by
  have hones : ∀ j < 16, (0xFFFF#16).getLsbD j = true := by decide
  cases b with
  | false => simp
  | true =>
    rw [if_pos rfl, BitVec.getLsbD_shiftLeft, hones (i - n) (by omega)]
    simp [hi, ← decide_not]

/-- Sign extension is the field with its top bit `n` filled into the bits above, at every width (R10). -/
theorem sext_eq_setWidth_or_fill {n : Nat} (v : BitVec (n + 1)) :
    sext v = v.setWidth 16 ||| (if v.getLsbD n then 0xFFFF#16 <<< (n + 1) else 0) := by
  apply BitVec.eq_of_getLsbD_eq
  intro i hi
  have hmsb : v.msb = v.getLsbD n := BitVec.msb_eq_getLsbD_last v
  rw [sext, BitVec.getLsbD_signExtend, hmsb, BitVec.getLsbD_or, BitVec.getLsbD_setWidth, getLsbD_fill _ _ _ hi]
  by_cases hin : i < n + 1
  · -- inside the field the fill has no bit
    have hfill : ¬ n + 1 ≤ i := by omega
    simp [hi, hin, hfill]
  · -- above the field only the fill has bits
    have hfill : n + 1 ≤ i := by omega
    simp [hi, hin, hfill]

/-- Zero extension of a byte keeps its value (R10). -/
@[simp] theorem zext16_toNat (b : Byte) : (zext16 b).toNat = b.toNat :=
  BitVec.toNat_setWidth_of_le (by decide)

/-- Settles O10: the four widths are instances of one formula that holds at every width. -/
theorem extensionFormulas : Obligations.ExtensionFormulas :=
  ⟨sext_eq_setWidth_or_fill, sext_eq_setWidth_or_fill, sext_eq_setWidth_or_fill, sext_eq_setWidth_or_fill, zext16_toNat⟩

end Sys2Proof.Machine
end

section
namespace Sys2Proof.Machine

open Sys2Proof.Claims

/-! The flag as the statements say it (R24). -/

/-- Bit 15 of a word, read as a number (R8). -/
theorem fld_15_15 (v : Word) : fld v 15 15 = (v.getLsbD 15).toNat := by
  rw [BitVec.getLsbD, Nat.toNat_testBit]
  rfl

/-- The model's flag is the flag of R24. -/
theorem flagOf_eq_flagSpec (v : Word) : flagOf v = flagSpec v := by
  simp only [flagOf, flagSpec, fld_15_15, Bool.toNat_eq_one]

/-- `setcc` leaves the general registers alone. -/
theorem State.setcc_regsSame (s : State) (v : Word) : RegsSame s (s.setcc v) := State.reg_congr (s.setcc_regs v)

/-- `setcc` leaves memory, input, output and control alone. -/
theorem State.setcc_restSame (s : State) (v : Word) : RestSame s (s.setcc v) :=
  ⟨State.peek_congr (s.setcc_mem v), ⟨s.setcc_inq v, s.setcc_polls v⟩, s.setcc_out v,
    s.setcc_run v, s.setcc_service v, s.setcc_termReq v⟩

/-- Settles O11: the three clauses are the three branches of R24's flag. -/
theorem flagRule : Obligations.FlagRule := by
  intro v s
  rw [State.setcc_cc, flagOf_eq_flagSpec, flagSpec]
  refine ⟨fun hzero => if_pos hzero, fun hne hneg => ?_, fun hne hpos => ?_,
    s.setcc_regsSame v, s.setcc_pc v, s.setcc_restSame v⟩
  · rw [if_neg hne, if_pos hneg]
  · rw [if_neg hne, hpos, if_neg (by decide)]

end Sys2Proof.Machine
end

section
namespace Sys2Proof.Machine

open Sys2Proof.Claims

/-! What the image loader puts in memory, and boot (R36, R280 to R283). -/

/-- A difference in memory alone, field by field. -/
theorem OnlyMemory.frame {s t : State} (h : OnlyMemory s t) :
    RegsSame s t ∧ t.pc = s.pc ∧ t.cc = s.cc ∧ InputSame s t ∧ t.out = s.out ∧ ControlSame s t := by
  rw [h]
  exact ⟨fun _ => rfl, rfl, rfl, ⟨rfl, rfl⟩, rfl, rfl, rfl, rfl⟩

/-- Two bytes put together, the high one first (R281). -/
theorem append_eq_ofNat (x y : Byte) : (x ++ y : Word) = BitVec.ofNat 16 (x.toNat * 256 + y.toNat) := by
  have hor : x.toNat <<< 8 + y.toNat = x.toNat <<< 8 ||| y.toNat := Nat.shiftLeft_add_eq_or_of_lt y.isLt x.toNat
  have := x.isLt
  have := y.isLt
  apply BitVec.eq_of_toNat_eq
  rw [BitVec.toNat_append, ← hor, Nat.shiftLeft_eq, BitVec.toNat_ofNat]
  omega

theorem append_toNat (x y : Byte) : (x ++ y : Word).toNat = x.toNat * 256 + y.toNat := by
  have := x.isLt
  have := y.isLt
  rw [append_eq_ofNat, BitVec.toNat_ofNat]
  omega

/-- The word that an image's body, loaded from the address `o` on, has for the address `a`. -/
def bodyWord (body : List Byte) (o a : Nat) : Option Word :=
  if o ≤ a then
    match body[2 * (a - o)]?, body[2 * (a - o) + 1]? with
    | some x, some y => some (BitVec.ofNat 16 (x.toNat * 256 + y.toNat))
    | _, _ => none
  else none

theorem bodyWord_of_lt (body : List Byte) {o a : Nat} (h : a < o) : bodyWord body o a = none :=
  if_neg (Nat.not_le.mpr h)

theorem bodyWord_same (hi lo : Byte) (rest : List Byte) (o : Nat) : bodyWord (hi :: lo :: rest) o o = some (hi ++ lo) := by
  simp [bodyWord, append_eq_ofNat]

/-- Past its first word, a body is the rest of it loaded one address higher. -/
theorem bodyWord_of_ne (hi lo : Byte) (rest : List Byte) {o a : Nat} (h : a ≠ o) :
    bodyWord (hi :: lo :: rest) o a = bodyWord rest (o + 1) a := by
  by_cases hle : o + 1 ≤ a
  · have hk : a - o = a - (o + 1) + 1 := by omega
    simp [bodyWord, hle, show o ≤ a by omega, hk, Nat.mul_add]
  · rw [bodyWord_of_lt _ (by omega), bodyWord_of_lt _ (by omega)]

/-- A body without a whole word has none for any address. -/
theorem bodyWord_of_short {body : List Byte} (h : body.length < 2) (o a : Nat) : bodyWord body o a = none := by
  have hlow : body[2 * (a - o) + 1]? = none := List.getElem?_eq_none (by omega)
  simp [bodyWord, hlow]

/-- The statements' word of an image is the word of its body from its origin on (R281). -/
theorem imageWord_cons_cons (hi lo : Byte) (body : List Byte) (a : Word) :
    imageWord (hi :: lo :: body) a = bodyWord body (hi.toNat * 256 + lo.toNat) a.toNat := rfl

/-- What memory holds after a body is loaded: its word where it has one, the old word elsewhere; an address past the top of
memory is no word's (R283). -/
theorem loadBody_peek (body : List Byte) (o : Nat) (s : State) (a : Word) :
    (loadBody body o s).peek a = (bodyWord body o a.toNat).getD (s.peek a) := by
  fun_induction loadBody body o s with
  | case1 hi lo rest o s ho ih =>
    have hat : a = BitVec.ofNat 16 o ↔ a.toNat = o := by
      rw [← BitVec.toNat_inj, BitVec.toNat_ofNat, Nat.mod_eq_of_lt (show o < 2 ^ 16 from ho)]
    rw [ih, State.load, State.peek_memWrite]
    by_cases h : a.toNat = o
    · rw [if_pos (hat.mpr h), bodyWord_of_lt rest (by omega), h, bodyWord_same]
      rfl
    · rw [if_neg (mt hat.mp h), bodyWord_of_ne hi lo rest h]
  | case2 hi lo rest o s ho =>
    have htop : a.toNat < o := Nat.lt_of_lt_of_le a.isLt (Nat.le_of_not_lt ho)
    rw [bodyWord_of_lt _ htop]
    rfl
  | case3 body o s hshort =>
    have hlen : body.length < 2 := by
      match body, hshort with
      | [], _ => decide
      | [_], _ => exact Nat.lt_add_one 1
      | hi :: lo :: rest, h => exact absurd rfl (h hi lo rest)
    rw [bodyWord_of_short hlen]
    rfl

/-- What memory holds after an image is loaded (R281, R283). -/
theorem loadImage_peek (bytes : List Byte) (s : State) (a : Word) :
    (loadImage bytes s).peek a = (imageWord bytes a).getD (s.peek a) := by
  match bytes with
  | [] => rfl
  | [_] => rfl
  | hi :: lo :: body => rw [imageWord_cons_cons, ← append_toNat]; exact loadBody_peek body _ s a

/-- What memory holds after several images: the word of the last that has one (R282). -/
theorem loadImages_peek (images : List (List Byte)) (s : State) (a : Word) :
    (loadImages images s).peek a = ((images.filterMap fun i => imageWord i a).getLast?).getD (s.peek a) := by
  induction images generalizing s with
  | nil => rfl
  | cons i is ih =>
    rw [loadImages_cons, ih, loadImage_peek, List.filterMap_cons]
    cases imageWord i a with
    | none => rfl
    | some w => rw [List.getLast?_cons]; rfl

/-- With at least one image and none that fails, the loop starts on what the loader left of the reset state (R280). -/
theorem boot_map_some {images : List (List Byte)} (h : images ≠ []) :
    boot (images.map some) = some (loadImages images State.reset) := by
  have hall : (images.map some).mapM id = some images := by
    simpa using List.mapM_pure (m := Option) (f := id) (l := images)
  rw [boot, if_neg (by simpa using h), hall]
  rfl

theorem State.reset_reg (r : Reg) : State.reset.reg r = 0 := by cases r <;> rfl

/-- Settles O1: the loader's law gives memory, and everything else is as reset left it. -/
theorem initialStateAfterBoot : Obligations.InitialStateAfterBoot := by
  intro images hne
  have honly := loadImages_only_memory images State.reset
  obtain ⟨hregs, hpc, hcc, ⟨hinq, -⟩, hout, hrun, -, -⟩ := honly.frame
  exact ⟨_, boot_map_some hne, fun r => (hregs r).trans (State.reset_reg r), hpc, hcc,
    loadImages_peek images State.reset, hrun, hinq, hout⟩

end Sys2Proof.Machine
end

section
namespace Sys2Proof.Machine

open Sys2Proof.Claims

/-! MemWrite as the statements say it (R57). -/

/-- A store changes the word at its address and no other. -/
theorem State.memWrite_memAfter (s : State) (a v : Word) : MemAfter s (s.memWrite a v) a v := by
  refine ⟨?_, fun b hne => ?_⟩
  · rw [State.peek_memWrite, if_pos rfl]
  · rw [State.peek_memWrite, if_neg hne]

/-- A store changes nothing but memory. -/
theorem State.memWrite_only_memory (s : State) (a v : Word) : OnlyMemory s (s.memWrite a v) := rfl

/-- Settles O23: one word of memory changes, and nothing outside memory does. -/
theorem memWriteIsPlain : Obligations.MemWriteIsPlain := fun a v s =>
  ⟨s.memWrite_memAfter a v, (s.memWrite_only_memory a v).frame⟩

end Sys2Proof.Machine
end

section
namespace Sys2Proof

open Sys2Proof.Claims

/-! The fields of a word as the statements say them, and as the decoder reads them (R8, R82, R83). -/

/-- The decoder's field holds the value that shifting and masking gives (R8). -/
theorem bits_of_fld {w : Word} {lo n : Nat} {v : BitVec (n + 1)} (h : fld w (lo + n) lo = v.toNat) :
    bits w lo (n + 1) = v := by
  have hwidth : lo + n + 1 - lo = n + 1 := by omega
  apply BitVec.eq_of_toNat_eq
  rw [bits_toNat, ← h, fld, hwidth]

/-- A register's 3-bit code is its index (R20). -/
theorem Reg.toBits_toNat (r : Reg) : r.toBits.toNat = regNo r := by cases r <;> rfl

/-- The opcode is the one whose number instr[15:12] holds (R81). -/
theorem opcode_of_fld {w : Word} {o : Opcode} (h : fld w 15 12 = o.toBits.toNat) : Opcode.ofBits (bits w 12 4) = o := by
  rw [bits_of_fld h, Opcode.ofBits_toBits]

/-- A 3-bit field at `lo` names the register whose index it holds (R83). -/
theorem Reg.ofBits_of_fld {w : Word} {lo : Nat} {r : Reg} (h : fld w (lo + 2) lo = regNo r) :
    Reg.ofBits (bits w lo 3) = r := by
  rw [← Reg.toBits_toNat] at h
  rw [bits_of_fld h, Reg.ofBits_toBits]

theorem fieldDst_of_fld {w : Word} {r : Reg} (h : fld w 11 9 = regNo r) : fieldDst w = r := Reg.ofBits_of_fld h

theorem fieldMid_of_fld {w : Word} {r : Reg} (h : fld w 8 6 = regNo r) : fieldMid w = r := Reg.ofBits_of_fld h

theorem fieldSrc2_of_fld {w : Word} {r : Reg} (h : fld w 2 0 = regNo r) : fieldSrc2 w = r :=
  Reg.ofBits_of_fld (lo := 0) h

end Sys2Proof
end

section
namespace Sys2Proof.Machine

open Sys2Proof.Claims

/-! Operands and results as the statements say them (R10, R21, R26). -/

/-- The model's sign extension is the two's-complement reading (R9, R10). -/
theorem sext_eq_sextSpec {n : Nat} (v : BitVec n) : sext v = sextSpec v := rfl

/-- Writing a result register changes that register and the flag, and nothing else (R21, R26). -/
theorem State.writeResult_resultOnly (s : State) (d : Reg) (v : Word) : ResultOnly s (s.writeResult d v) d v := by
  refine ⟨⟨?_, fun r hne => ?_⟩, ?_, s.writeResult_pc d v, (s.setReg d v).setcc_restSame v⟩
  · rw [State.reg_writeResult, if_pos rfl]
  · rw [State.reg_writeResult, if_neg hne]
  · rw [State.writeResult_cc, flagOf_eq_flagSpec]

end Sys2Proof.Machine
end

section
namespace Sys2Proof.Machine

open Sys2Proof.Claims

/-! ADD and AND: bit 5 of the word picks the form (R82, R122 to R125). -/

theorem decode_add {w : Word} (hop : fld w 15 12 = 1) :
    decode w = if bits w 5 1 = 1#1 then .addI (fieldDst w) (fieldMid w) (bits w 0 5)
      else .addR (fieldDst w) (fieldMid w) (fieldSrc2 w) := by
  rw [decode, opcode_of_fld (o := .add) hop]

theorem decode_and {w : Word} (hop : fld w 15 12 = 5) :
    decode w = if bits w 5 1 = 1#1 then .andI (fieldDst w) (fieldMid w) (bits w 0 5)
      else .andR (fieldDst w) (fieldMid w) (fieldSrc2 w) := by
  rw [decode, opcode_of_fld (o := .and) hop]

theorem bit5_eq_one {w : Word} (h : fld w 5 5 = 1) : bits w 5 1 = 1#1 := bits_of_fld (n := 0) h

theorem bit5_ne_one {w : Word} (h : fld w 5 5 = 0) : bits w 5 1 ≠ 1#1 := by
  rw [bits_of_fld (n := 0) (v := 0#1) h]
  decide

theorem imm5_of_fld {w : Word} {i : BitVec 5} (h : fld w 4 0 = i.toNat) : bits w 0 5 = i :=
  bits_of_fld (lo := 0) (n := 4) h

theorem exec_addR (d a b : Reg) (s : State) : exec (.addR d a b) s = .next (s.writeResult d (s.reg a + s.reg b)) := rfl

theorem exec_andR (d a b : Reg) (s : State) :
    exec (.andR d a b) s = .next (s.writeResult d (s.reg a &&& s.reg b)) := rfl

theorem exec_addI (d a : Reg) (i : BitVec 5) (s : State) :
    exec (.addI d a i) s = .next (s.writeResult d (s.reg a + sextSpec i)) := by
  rw [← sext_eq_sextSpec]
  rfl

theorem exec_andI (d a : Reg) (i : BitVec 5) (s : State) :
    exec (.andI d a i) s = .next (s.writeResult d (s.reg a &&& sextSpec i)) := by
  rw [← sext_eq_sextSpec]
  rfl

/-- Settles O12: instr[5] = 0 picks the register form, and `exec` writes the sum of the old source words as a result. -/
theorem addRegister : Obligations.AddRegister := by
  intro d a b
  refine ⟨fun w hop hform hd ha hb => ?_, fun s => ⟨_, exec_addR d a b s, s.writeResult_resultOnly d _⟩⟩
  rw [decode_add hop, if_neg (bit5_ne_one hform), fieldDst_of_fld hd, fieldMid_of_fld ha, fieldSrc2_of_fld hb]

/-- Settles O13: instr[5] = 1 picks the immediate form, and `exec` writes the sum as a result. -/
theorem addImmediate : Obligations.AddImmediate := by
  intro d a i
  refine ⟨fun w hop hform hd ha hi => ?_, fun s => ⟨_, exec_addI d a i s, s.writeResult_resultOnly d _⟩⟩
  rw [decode_add hop, if_pos (bit5_eq_one hform), fieldDst_of_fld hd, fieldMid_of_fld ha, imm5_of_fld hi]

/-- Settles O14: instr[5] = 0 picks the register form, and `exec` writes the conjunction of the old source words as a
result. -/
theorem andRegister : Obligations.AndRegister := by
  intro d a b
  refine ⟨fun w hop hform hd ha hb => ?_, fun s => ⟨_, exec_andR d a b s, s.writeResult_resultOnly d _⟩⟩
  rw [decode_and hop, if_neg (bit5_ne_one hform), fieldDst_of_fld hd, fieldMid_of_fld ha, fieldSrc2_of_fld hb]

/-- Settles O15: instr[5] = 1 picks the immediate form, and `exec` writes the conjunction as a result. -/
theorem andImmediate : Obligations.AndImmediate := by
  intro d a i
  refine ⟨fun w hop hform hd ha hi => ?_, fun s => ⟨_, exec_andI d a i s, s.writeResult_resultOnly d _⟩⟩
  rw [decode_and hop, if_pos (bit5_eq_one hform), fieldDst_of_fld hd, fieldMid_of_fld ha, imm5_of_fld hi]

end Sys2Proof.Machine
end

section
namespace Sys2Proof.Machine

open Sys2Proof.Claims

/-! What a write of one register, or of pc, leaves unchanged, as the statements say it (R11). -/

/-- Writing a register changes that register and no other. -/
theorem State.setReg_regsAfter (s : State) (d : Reg) (v : Word) : RegsAfter s (s.setReg d v) d v := by
  refine ⟨?_, fun r hne => ?_⟩
  · rw [State.reg_setReg, if_pos rfl]
  · rw [State.reg_setReg, if_neg hne]

/-- Writing a register leaves memory, input, output and control alone. -/
theorem State.setReg_restSame (s : State) (d : Reg) (v : Word) : RestSame s (s.setReg d v) :=
  ⟨s.peek_setReg d v, ⟨s.setReg_inq d v, s.setReg_polls d v⟩, s.setReg_out d v,
    s.setReg_run d v, s.setReg_service d v, s.setReg_termReq d v⟩

/-- Writing pc leaves the general registers alone. -/
theorem State.setPc_regsSame (s : State) (v : Word) : RegsSame s (s.setPc v) := fun r => s.reg_setPc r v

/-- Writing pc leaves memory, input, output and control alone. -/
theorem State.setPc_restSame (s : State) (v : Word) : RestSame s (s.setPc v) :=
  ⟨s.peek_setPc v, ⟨s.setPc_inq v, s.setPc_polls v⟩, s.setPc_out v,
    s.setPc_run v, s.setPc_service v, s.setPc_termReq v⟩

end Sys2Proof.Machine
end

section
namespace Sys2Proof.Machine

open Sys2Proof.Claims

/-! JMP and JSR: a write of pc, JSR's after the link in R7 (R142, R143). -/

theorem decode_jmp {w : Word} (hop : fld w 15 12 = 12) : decode w = .jmp (fieldMid w) := by
  rw [decode, opcode_of_fld (o := .jmp) hop]

/-- Opcode 4 is JSR or JSRR as instr[11] is 1 or 0 (R82). -/
theorem decode_jsr_or_jsrr {w : Word} (hop : fld w 15 12 = 4) :
    decode w = if bits w 11 1 = 1#1 then .jsr (bits w 0 11) else .jsrr (fieldMid w) := by
  rw [decode, opcode_of_fld (o := .jsr) hop]

theorem bit11_eq_one {w : Word} (h : fld w 11 11 = 1) : bits w 11 1 = 1#1 := bits_of_fld (n := 0) h

theorem offset11_of_fld {w : Word} {o : BitVec 11} (h : fld w 10 0 = o.toNat) : bits w 0 11 = o :=
  bits_of_fld (lo := 0) (n := 10) h

theorem exec_jmp (b : Reg) (s : State) : exec (.jmp b) s = .next (s.setPc (s.reg b)) := rfl

theorem exec_jsr (o : BitVec 11) (s : State) :
    exec (.jsr o) s = .next ((s.setReg .r7 s.pc).setPc (s.pc + sextSpec o)) := by
  rw [← sext_eq_sextSpec]
  rfl

/-- Settles O18: instr[8:6] names the base, and `exec` writes pc from it and does nothing else. -/
theorem jumpThroughRegister : Obligations.JumpThroughRegister := by
  intro b
  refine ⟨fun w hop hb => ?_, fun s => ⟨_, exec_jmp b s, s.setPc_pc _, s.setPc_regsSame _, s.setPc_cc _, s.setPc_restSame _⟩⟩
  rw [decode_jmp hop, fieldMid_of_fld hb]

/-- Settles O19: instr[11] = 1 picks the offset form, and `exec` writes the old pc to R7 and then pc; the frame of the
link's write is the frame of both, since a write of pc is seen by pc alone. -/
theorem jsrLinksAndJumps : Obligations.JsrLinksAndJumps := by
  intro o
  refine ⟨fun w hop hform ho => ?_, fun s => ⟨_, exec_jsr o s, ?_⟩⟩
  · rw [decode_jsr_or_jsrr hop, if_pos (bit11_eq_one hform), offset11_of_fld ho]
  · exact ⟨s.setReg_regsAfter .r7 s.pc, State.setPc_pc _ _, s.setReg_cc .r7 s.pc, s.setReg_restSame .r7 s.pc⟩

end Sys2Proof.Machine
end

section
namespace Sys2Proof.Machine

open Sys2Proof.Claims

/-! The frame of the MemReads of an instruction, and of a result or a store that comes after them (R26, R55 to R58). -/

/-- All that reads of memory may change is memory and input, by the keyboard poll: `m` is `s` in every other field. -/
structure OnlyReads (s m : State) : Prop where
  regs : m.regs = s.regs
  pc : m.pc = s.pc
  cc : m.cc = s.cc
  out : m.out = s.out
  run : m.run = s.run
  service : m.service = s.service
  termReq : m.termReq = s.termReq

/-- An instruction with no read. -/
theorem OnlyReads.refl (s : State) : OnlyReads s s := ⟨rfl, rfl, rfl, rfl, rfl, rfl, rfl⟩

/-- One read after another. -/
theorem OnlyReads.trans {s m n : State} (h : OnlyReads s m) (h' : OnlyReads m n) : OnlyReads s n :=
  ⟨h'.regs.trans h.regs, h'.pc.trans h.pc, h'.cc.trans h.cc, h'.out.trans h.out,
    h'.run.trans h.run, h'.service.trans h.service, h'.termReq.trans h.termReq⟩

/-- A MemRead, with or without its poll, is only a read (R55, R56). -/
theorem State.memRead_onlyReads (s : State) (a : Word) : OnlyReads s (s.memRead a).2 :=
  ⟨s.afterRead_regs a, s.afterRead_pc a, s.afterRead_cc a, s.afterRead_out a,
    s.afterRead_run a, s.afterRead_service a, s.afterRead_termReq a⟩

theorem OnlyReads.regsSame {s m : State} (h : OnlyReads s m) : RegsSame s m := State.reg_congr h.regs

theorem OnlyReads.controlSame {s m : State} (h : OnlyReads s m) : ControlSame s m := ⟨h.run, h.service, h.termReq⟩

/-- A result written in the state the reads leave is the effect of a load. -/
theorem OnlyReads.writeResult {s m : State} (h : OnlyReads s m) (d : Reg) (v : Word) :
    ResultAfterReads s m (m.writeResult d v) d v := by
  obtain ⟨⟨hdst, hother⟩, hcc, hpc, hmem, hinput, hout, -⟩ := m.writeResult_resultOnly d v
  exact ⟨⟨hdst, fun r hne => (hother r hne).trans (h.regsSame r)⟩, hcc, hpc.trans h.pc, hmem, hinput,
    hout.trans h.out, h.controlSame⟩

/-- A word stored in the state the reads leave is the effect of a store. -/
theorem OnlyReads.memWrite {s m : State} (h : OnlyReads s m) (a v : Word) :
    StoreAfterReads s m (m.memWrite a v) a v := by
  obtain ⟨-, -, -, hinput, -, -⟩ := (m.memWrite_only_memory a v).frame
  exact ⟨m.memWrite_memAfter a v, h.regsSame, h.cc, h.pc, hinput, h.out, h.controlSame⟩

end Sys2Proof.Machine
end

section
namespace Sys2Proof.Machine

open Sys2Proof.Claims

/-! The layouts of the loads and stores, and what each does, with the addresses as the statements say them (R82, R160). -/

theorem decode_ld {w : Word} (hop : fld w 15 12 = 2) : decode w = .ld (fieldDst w) (bits w 0 9) := by
  rw [decode, opcode_of_fld (o := .ld) hop]

theorem decode_ldi {w : Word} (hop : fld w 15 12 = 10) : decode w = .ldi (fieldDst w) (bits w 0 9) := by
  rw [decode, opcode_of_fld (o := .ldi) hop]

theorem decode_ldr {w : Word} (hop : fld w 15 12 = 6) : decode w = .ldr (fieldDst w) (fieldMid w) (bits w 0 6) := by
  rw [decode, opcode_of_fld (o := .ldr) hop]

theorem decode_lea {w : Word} (hop : fld w 15 12 = 14) : decode w = .lea (fieldDst w) (bits w 0 9) := by
  rw [decode, opcode_of_fld (o := .lea) hop]

theorem decode_st {w : Word} (hop : fld w 15 12 = 3) : decode w = .st (fieldDst w) (bits w 0 9) := by
  rw [decode, opcode_of_fld (o := .st) hop]

theorem decode_sti {w : Word} (hop : fld w 15 12 = 11) : decode w = .sti (fieldDst w) (bits w 0 9) := by
  rw [decode, opcode_of_fld (o := .sti) hop]

theorem decode_str {w : Word} (hop : fld w 15 12 = 7) : decode w = .str (fieldDst w) (fieldMid w) (bits w 0 6) := by
  rw [decode, opcode_of_fld (o := .str) hop]

theorem offset9_of_fld {w : Word} {o : BitVec 9} (h : fld w 8 0 = o.toNat) : bits w 0 9 = o :=
  bits_of_fld (lo := 0) (n := 8) h

theorem offset6_of_fld {w : Word} {o : BitVec 6} (h : fld w 5 0 = o.toNat) : bits w 0 6 = o :=
  bits_of_fld (lo := 0) (n := 5) h

theorem State.pcRel9_eq (s : State) (o : BitVec 9) : s.pcRel9 o = s.pc + sextSpec o := by
  rw [State.pcRel9, sext_eq_sextSpec]

theorem State.baseOff6_eq (s : State) (b : Reg) (o : BitVec 6) : s.baseOff6 b o = s.reg b + sextSpec o := by
  rw [State.baseOff6, sext_eq_sextSpec]

theorem State.indirect9_eq (s : State) (o : BitVec 9) : s.indirect9 o = s.memRead (s.pc + sextSpec o) := by
  rw [State.indirect9, State.pcRel9_eq]

theorem exec_ld (d : Reg) (o : BitVec 9) (s : State) :
    exec (.ld d o) s =
      .next ((s.memRead (s.pc + sextSpec o)).2.writeResult d (s.memRead (s.pc + sextSpec o)).1) := by
  rw [← State.pcRel9_eq]
  rfl

theorem exec_ldi (d : Reg) (o : BitVec 9) (s : State) :
    exec (.ldi d o) s =
      let p := s.memRead (s.pc + sextSpec o)
      .next ((p.2.memRead p.1).2.writeResult d (p.2.memRead p.1).1) := by
  rw [← State.indirect9_eq]
  rfl

theorem exec_ldr (d b : Reg) (o : BitVec 6) (s : State) :
    exec (.ldr d b o) s =
      .next ((s.memRead (s.reg b + sextSpec o)).2.writeResult d (s.memRead (s.reg b + sextSpec o)).1) := by
  rw [← State.baseOff6_eq]
  rfl

theorem exec_lea (d : Reg) (o : BitVec 9) (s : State) :
    exec (.lea d o) s = .next (s.writeResult d (s.pc + sextSpec o)) := by
  rw [← State.pcRel9_eq]
  rfl

theorem exec_st (r : Reg) (o : BitVec 9) (s : State) :
    exec (.st r o) s = .next (s.memWrite (s.pc + sextSpec o) (s.reg r)) := by
  rw [← State.pcRel9_eq]
  rfl

theorem exec_sti (r : Reg) (o : BitVec 9) (s : State) :
    exec (.sti r o) s =
      let p := s.memRead (s.pc + sextSpec o)
      .next (p.2.memWrite p.1 (s.reg r)) := by
  rw [← State.indirect9_eq]
  rfl

theorem exec_str (r b : Reg) (o : BitVec 6) (s : State) :
    exec (.str r b o) s = .next (s.memWrite (s.reg b + sextSpec o) (s.reg r)) := by
  rw [← State.baseOff6_eq]
  rfl

end Sys2Proof.Machine
end

section
namespace Sys2Proof.Machine

open Sys2Proof.Claims

/-! The loads and LEA: a result after no, one or two MemReads (R161 to R164). -/

/-- Settles O24: the result is written in the state that the one read leaves. -/
theorem loadPcRelative : Obligations.LoadPcRelative := by
  intro d o
  refine ⟨fun w hop hd ho => ?_, fun s => ⟨_, exec_ld d o s, (s.memRead_onlyReads _).writeResult d _⟩⟩
  rw [decode_ld hop, fieldDst_of_fld hd, offset9_of_fld ho]

/-- Settles O25: the data is read in the state that the pointer's read leaves, and the frames of the two reads compose. -/
theorem loadIndirect : Obligations.LoadIndirect := by
  intro d o
  refine ⟨fun w hop hd ho => ?_, fun s => ⟨_, exec_ldi d o s, OnlyReads.writeResult ?_ d _⟩⟩
  · rw [decode_ldi hop, fieldDst_of_fld hd, offset9_of_fld ho]
  · exact (s.memRead_onlyReads _).trans (State.memRead_onlyReads _ _)

/-- Settles O26: the address is formed in the old state, so `dst` may be the base. -/
theorem loadBaseOffset : Obligations.LoadBaseOffset := by
  intro d b o
  refine ⟨fun w hop hd hb ho => ?_, fun s => ⟨_, exec_ldr d b o s, (s.memRead_onlyReads _).writeResult d _⟩⟩
  rw [decode_ldr hop, fieldDst_of_fld hd, fieldMid_of_fld hb, offset6_of_fld ho]

/-- Settles O27: the address itself is the result, written in the state with no read before it. -/
theorem loadEffectiveAddress : Obligations.LoadEffectiveAddress := by
  intro d o
  refine ⟨fun w hop hd ho => ?_, fun s => ⟨_, exec_lea d o s, s.writeResult_resultOnly d _⟩⟩
  rw [decode_lea hop, fieldDst_of_fld hd, offset9_of_fld ho]

end Sys2Proof.Machine
end

section
namespace Sys2Proof.Machine

open Sys2Proof.Claims

/-! The stores: a MemWrite after no MemRead, or after STI's pointer read (R165 to R167). -/

/-- Settles O28: a store of the register's word, with no read before it. -/
theorem storePcRelative : Obligations.StorePcRelative := by
  intro r o
  refine ⟨fun w hop hr ho => ?_, fun s => ⟨_, exec_st r o s, (OnlyReads.refl s).memWrite _ _⟩⟩
  rw [decode_st hop, fieldDst_of_fld hr, offset9_of_fld ho]

/-- Settles O29: the store is made in the state that the pointer's read leaves, of the word the register held before it. -/
theorem storeIndirect : Obligations.StoreIndirect := by
  intro r o
  refine ⟨fun w hop hr ho => ?_, fun s => ⟨_, exec_sti r o s, (s.memRead_onlyReads _).memWrite _ _⟩⟩
  rw [decode_sti hop, fieldDst_of_fld hr, offset9_of_fld ho]

/-- Settles O30: a store of the register's word at base plus offset, with no read before it. -/
theorem storeBaseOffset : Obligations.StoreBaseOffset := by
  intro r b o
  refine ⟨fun w hop hr hb ho => ?_, fun s => ⟨_, exec_str r b o s, (OnlyReads.refl s).memWrite _ _⟩⟩
  rw [decode_str hop, fieldDst_of_fld hr, fieldMid_of_fld hb, offset6_of_fld ho]

end Sys2Proof.Machine
end

section
namespace Sys2Proof.Machine

open Sys2Proof.Claims

/-! Traps as the statements say them: the vector of a TRAP word, the link with what a service emits, and the end of a run
(R100, R190, R191). -/

/-- Opcode 15 is TRAP, of the vector in instr[7:0] (R82, R190). -/
theorem decode_trap {w : Word} {v : BitVec 8} (hop : fld w 15 12 = 15) (hv : fld w 7 0 = v.toNat) :
    decode w = decodeTrap v := by
  rw [decode, opcode_of_fld (o := .trap) hop, bits_of_fld (lo := 0) (n := 7) hv]

/-- The service vectors are 0x20 to 0x25 (R94). -/
theorem isServiceVector_iff (v : BitVec 8) : isServiceVector v = true ↔ 0x20 ≤ v.toNat ∧ v.toNat ≤ 0x25 := by
  simp [isServiceVector, BitVec.le_def]

/-- The low byte is bits 7:0 (R8). -/
theorem lowByte_eq_lowSpec (w : Word) : lowByte w = lowSpec w := by
  have hlt : fld w 7 0 < 2 ^ 8 := Nat.mod_lt _ (by decide)
  refine bits_of_fld (lo := 0) (n := 7) ?_
  rw [lowSpec, BitVec.toNat_ofNat, Nat.mod_eq_of_lt hlt]

@[simp] theorem State.emit_nil (s : State) : s.emit [] = s := by
  rw [State.emit, List.append_nil]

/-- Trap entry changes R7 and what a service emits changes the output; nothing else changes (R32, R190). -/
theorem State.trapEntry_emit_linkAndEmit (s : State) (bs : List Byte) : LinkAndEmit s (s.trapEntry.emit bs) bs := by
  obtain ⟨hmem, hinput, -, hcontrol⟩ := s.setReg_restSame .r7 s.pc
  exact ⟨s.setReg_regsAfter .r7 s.pc, s.trapEntry_cc, s.trapEntry_pc, hmem, hinput, State.emit_out _ bs, hcontrol⟩

/-- Only RUNNING takes steps (R27, R100). -/
theorem step_ne_next {s : State} (h : s.run ≠ .running) (t : State) : step s ≠ .next t :=
  fun hstep => h (step_cases hstep).1

end Sys2Proof.Machine
end

section
namespace Sys2Proof.Machine

open Sys2Proof.Claims

/-! An unknown vector, OUT and HALT: the link, then no byte, one byte or a message (R193, R197, R198). -/

/-- A vector that selects no service links and emits nothing (R198). -/
theorem exec_trap_unknown {v : BitVec 8} (h : isServiceVector v = false) (s : State) :
    exec (.trap v) s = .next (s.trapEntry.emit []) := by
  rw [State.emit_nil, exec, execTrap, runService_unknown h]

/-- OUT reads R0 after the link, which R0 does not see (R193). -/
theorem exec_out (s : State) : exec .out s = .next (s.trapEntry.emit [lowSpec (s.reg .r0)]) := by
  rw [← lowByte_eq_lowSpec]
  rfl

theorem exec_halt (s : State) :
    exec .halt s = .next { s.trapEntry.emit Config.haltMessage with run := .halted } := rfl

/-- Settles O34: outside 0x20 to 0x25 the decoder picks no service's row, and the dispatcher selects no service. -/
theorem unknownVectorOnlyLinks : Obligations.UnknownVectorOnlyLinks := by
  intro v hv
  have hunknown : isServiceVector v = false := by
    rw [← Bool.not_eq_true, isServiceVector_iff]
    omega
  refine ⟨fun w hop hfld => ?_, fun s => ⟨_, exec_trap_unknown hunknown s, s.trapEntry_emit_linkAndEmit []⟩⟩
  rw [decode_trap hop hfld, decodeTrap_of_not_service hunknown]

/-- Settles O37: what OUT emits after the link is bits 7:0 of the old R0. -/
theorem outEmitsLowByte : Obligations.OutEmitsLowByte := fun s =>
  ⟨_, exec_out s, s.trapEntry_emit_linkAndEmit _⟩

/-- Settles O41: the message is emitted after the link, and then `run` alone changes, to a state that takes no step. -/
theorem haltEndsTheRun : Obligations.HaltEndsTheRun := by
  intro s
  obtain ⟨hregs, hcc, hpc, hmem, hinput, hout, -, hservice, htermReq⟩ := s.trapEntry_emit_linkAndEmit Config.haltMessage
  have hfinal : RunState.halted ≠ .running := by decide
  exact ⟨_, exec_halt s, hregs, hcc, hpc, hmem, hinput, hout, rfl, hservice, htermReq, rfl, step_ne_next hfinal⟩

end Sys2Proof.Machine
end

section
namespace Sys2Proof.Machine

/-! Images that load over each other (R282). -/

/-- Settles O59: the law of memory after a list of images, proved by induction on the list for any start state. -/
theorem laterImagesOverwrite : Obligations.LaterImagesOverwrite := loadImages_peek

end Sys2Proof.Machine
end

section
namespace Sys2Proof

open Sys2Proof.Laws

/-! Decoding what the encoder wrote (R82, R95). -/

/-- The opcode field of an instruction's word is its opcode, for every constructor (R80, R81). -/
theorem encodedOpcode (i : Instr) : EncodedOpcode.Statement i := by
  cases i with
  | addR d a b => exact EncodedOpcode.addR d a b
  | addI d a i => exact EncodedOpcode.addI d a i
  | andR d a b => exact EncodedOpcode.andR d a b
  | andI d a i => exact EncodedOpcode.andI d a i
  | not d a => exact EncodedOpcode.not d a
  | br c o => exact EncodedOpcode.br c o
  | jmp b => exact EncodedOpcode.jmp b
  | jsr o => exact EncodedOpcode.jsr o
  | jsrr b => exact EncodedOpcode.jsrr b
  | ld d o => exact EncodedOpcode.ld d o
  | ldi d o => exact EncodedOpcode.ldi d o
  | ldr d b o => exact EncodedOpcode.ldr d b o
  | lea d o => exact EncodedOpcode.lea d o
  | st r o => exact EncodedOpcode.st r o
  | sti r o => exact EncodedOpcode.sti r o
  | str r b o => exact EncodedOpcode.str r b o
  | trap v => exact EncodedOpcode.trap v
  | rti => exact EncodedOpcode.rti
  | res => exact EncodedOpcode.res
  | getc => exact EncodedOpcode.getc
  | out => exact EncodedOpcode.out
  | puts => exact EncodedOpcode.puts
  | in_ => exact EncodedOpcode.in_
  | putsp => exact EncodedOpcode.putsp
  | halt => exact EncodedOpcode.halt

/-- The decoder's first look at an instruction's word finds its opcode. -/
theorem opcode_encode (i : Instr) : Opcode.ofBits (bits (encode i) 12 4) = i.opcode := by
  rw [encodedOpcode i, Opcode.ofBits_toBits]

/-- Settles O5: the opcode picks the instruction's own layout, and each field is read where the encoder put it. -/
theorem encodeThenDecode : Obligations.EncodeThenDecode := by
  intro i hwf
  rw [decode, opcode_encode]
  cases i with
  | addR | addI | andR | andI | not | br | jmp | jsr | jsrr | ld | ldi | ldr | lea | st | sti | str =>
    simp (disch := omega) [Instr.opcode, encode, fieldDst, fieldMid, fieldSrc2, placeOp, placeHigh, placeMid,
      bits_place_same, bits_place_disjoint]
  | trap v =>
    have hunknown : isServiceVector v = false := by simpa [Instr.WellFormed, Instr.wellFormed] using hwf
    have hvector : bits (encodeTrap v) 0 8 = v := by
      simp (disch := omega) [encodeTrap, placeOp, bits_place_same, bits_place_disjoint]
    simpa only [Instr.opcode, encode, hvector] using decodeTrap_of_not_service hunknown
  | rti | res | getc | out | puts | in_ | putsp | halt => rfl

end Sys2Proof
end

section
namespace Sys2Proof

open Sys2Proof.Claims

/-! Encoding what the decoder read, and the bits it does not read (R82, R92). -/

/-- A field put back where it was read gives the word's bits there, and zeros elsewhere. -/
theorem place_bits (w : Word) (lo n : Nat) : place lo (bits w lo n) = w &&& place lo (BitVec.allOnes n) := by
  apply BitVec.eq_of_getLsbD_eq
  intro i hi
  simp only [place, bits, BitVec.getLsbD_shiftLeft, BitVec.getLsbD_setWidth, BitVec.getLsbD_extractLsb',
    BitVec.getLsbD_and, BitVec.getLsbD_allOnes]
  by_cases hlo : i < lo
  · simp [hlo]
  · have hsame : lo + (i - lo) = i := by omega
    rw [hsame]
    cases w.getLsbD i <;> simp [hi, hlo]

/-- The opcode put back is instr[15:12] (R82). -/
theorem placeOp_of_opcode {w : Word} {o : Opcode} (h : Opcode.ofBits (bits w 12 4) = o) : placeOp o = w &&& 0xF000 := by
  rw [← h, placeOp, Opcode.toBits_ofBits, place_bits]
  rfl

theorem placeHigh_fieldDst (w : Word) : placeHigh (fieldDst w) = w &&& 0x0E00 := by
  rw [placeHigh, fieldDst, Reg.toBits_ofBits, place_bits]
  rfl

theorem placeMid_fieldMid (w : Word) : placeMid (fieldMid w) = w &&& 0x01C0 := by
  rw [placeMid, fieldMid, Reg.toBits_ofBits, place_bits]
  rfl

theorem place_fieldSrc2 (w : Word) : place 0 (fieldSrc2 w).toBits = w &&& 0x0007 := by
  rw [fieldSrc2, Reg.toBits_ofBits, place_bits]
  rfl

/-- A one-bit field is 1, or else it is 0. -/
theorem bit_eq_zero {b : BitVec 1} (h : b ≠ 1#1) : b = 0#1 := by
  revert b
  decide

/-- Two words differ in no bit of `m` exactly when they agree there. -/
theorem xor_and_eq_zero_iff (x w m : Word) : (x ^^^ w) &&& m = 0 ↔ x &&& m = w &&& m := by
  rw [← BitVec.xor_eq_zero_iff (x := x &&& m)]
  have hdistrib : (x ^^^ w) &&& m = x &&& m ^^^ w &&& m := by
    ext i
    simp [Bool.and_xor_distrib_right]
  rw [hdistrib]
  rfl

@[simp] theorem place_zero (lo n : Nat) : place lo 0#n = 0#16 := by simp [place]

/-- The opcode that the decoder's form has is the one in instr[15:12] (R81, R95). -/
theorem decode_opcode (w : Word) : (decode w).opcode = Opcode.ofBits (bits w 12 4) := by
  unfold decode
  cases Opcode.ofBits (bits w 12 4) with
  | add | and | jsr => dsimp only; split <;> rfl
  | trap =>
    dsimp only
    unfold decodeTrap
    split <;> rfl
  | br | ld | st | ldr | str | rti | not | ldi | sti | jmp | res | lea => rfl

/-- A TRAP word's row has the vector it was picked by, and does not read instr[11:8] (R92, R191). -/
theorem decodeTrap_row (v : BitVec 8) :
    (decodeTrap v).WellFormed ∧ encode (decodeTrap v) = encodeTrap v ∧ unreadBits (decodeTrap v) = 0x0F00 := by
  cases hs : isServiceVector v with
  | false =>
    rw [decodeTrap_of_not_service hs]
    exact ⟨by simp [Instr.WellFormed, Instr.wellFormed, hs], rfl, rfl⟩
  | true =>
    revert v
    decide

/-! The layouts of R82, put together again from the fields that the decoder read: the word, less the bits that the
layout does not name. -/

section

variable {w : Word} {o : Opcode} (ho : Opcode.ofBits (bits w 12 4) = o)
include ho

/-- LD, LDI, ST, STI and LEA. -/
theorem place_reg_offset9 : placeOp o ||| placeHigh (fieldDst w) ||| place 0 (bits w 0 9) = w := by
  rw [placeOp_of_opcode ho, placeHigh_fieldDst, place_bits]
  simp only [← BitVec.and_or_distrib_left]
  exact BitVec.and_allOnes

/-- LDR and STR. -/
theorem place_regs_offset6 :
    placeOp o ||| placeHigh (fieldDst w) ||| placeMid (fieldMid w) ||| place 0 (bits w 0 6) = w := by
  rw [placeOp_of_opcode ho, placeHigh_fieldDst, placeMid_fieldMid, place_bits]
  simp only [← BitVec.and_or_distrib_left]
  exact BitVec.and_allOnes

/-- ADD and AND, immediate form. -/
theorem place_operate_imm (h5 : bits w 5 1 = 1#1) :
    placeOp o ||| placeHigh (fieldDst w) ||| placeMid (fieldMid w) ||| place 5 1#1 ||| place 0 (bits w 0 5) = w := by
  rw [placeOp_of_opcode ho, placeHigh_fieldDst, placeMid_fieldMid, ← h5, place_bits, place_bits]
  simp only [← BitVec.and_or_distrib_left]
  exact BitVec.and_allOnes

/-- ADD and AND, register form: instr[4:3] is lost. -/
theorem place_operate_reg (h5 : bits w 5 1 = 0#1) :
    placeOp o ||| placeHigh (fieldDst w) ||| placeMid (fieldMid w) ||| place 5 0#1 ||| place 3 0#2 |||
      place 0 (fieldSrc2 w).toBits = w &&& 0xFFE7 := by
  rw [placeOp_of_opcode ho, placeHigh_fieldDst, placeMid_fieldMid, ← h5, place_bits, place_zero, place_fieldSrc2]
  simp only [← BitVec.and_or_distrib_left, BitVec.or_zero]
  rfl

/-- NOT: instr[5:0] is written as ones. -/
theorem place_operate_not :
    placeOp o ||| placeHigh (fieldDst w) ||| placeMid (fieldMid w) ||| place 0 0x3F#6 = w &&& 0xFFC0 ||| 0x003F := by
  rw [placeOp_of_opcode ho, placeHigh_fieldDst, placeMid_fieldMid]
  simp only [← BitVec.and_or_distrib_left]
  rfl

/-- JMP: the base alone is kept. -/
theorem place_base : placeOp o ||| place 9 0#3 ||| placeMid (fieldMid w) ||| place 0 0#6 = w &&& 0xF1C0 := by
  rw [placeOp_of_opcode ho, placeMid_fieldMid, place_zero, place_zero]
  simp only [← BitVec.and_or_distrib_left, BitVec.or_zero]
  rfl

/-- BR. -/
theorem place_cond_offset9 : placeOp o ||| place 9 (bits w 9 3) ||| place 0 (bits w 0 9) = w := by
  rw [placeOp_of_opcode ho, place_bits, place_bits]
  simp only [← BitVec.and_or_distrib_left]
  exact BitVec.and_allOnes

/-- JSR. -/
theorem place_offset11 (h11 : bits w 11 1 = 1#1) : placeOp o ||| place 11 1#1 ||| place 0 (bits w 0 11) = w := by
  rw [placeOp_of_opcode ho, ← h11, place_bits, place_bits]
  simp only [← BitVec.and_or_distrib_left]
  exact BitVec.and_allOnes

/-- JSRR: instr[11] and the base are kept. -/
theorem place_link_base (h11 : bits w 11 1 = 0#1) :
    placeOp o ||| place 11 0#1 ||| place 9 0#2 ||| placeMid (fieldMid w) ||| place 0 0#6 = w &&& 0xF9C0 := by
  rw [placeOp_of_opcode ho, ← h11, place_bits, placeMid_fieldMid, place_zero, place_zero]
  simp only [← BitVec.and_or_distrib_left, BitVec.or_zero]
  rfl

/-- TRAP: instr[11:8] is lost. -/
theorem place_vector : placeOp o ||| place 0 (bits w 0 8) = w &&& 0xF0FF := by
  rw [placeOp_of_opcode ho, place_bits]
  simp only [← BitVec.and_or_distrib_left]
  rfl

end

/-- Settles O6: a layout put together from its fields is the word on the bits that the form reads. -/
theorem decodeThenEncode : Obligations.DecodeThenEncode := by
  intro w
  rw [xor_and_eq_zero_iff]
  cases ho : Opcode.ofBits (bits w 12 4) with
  | add | and =>
    simp only [decode, ho]
    split
    next h5 =>
      exact ⟨rfl, by rw [encode, place_operate_imm ho h5]⟩
    next h5 =>
      refine ⟨rfl, ?_⟩
      rw [encode, place_operate_reg ho (bit_eq_zero h5), unreadBits, BitVec.and_assoc]
      rfl
  | not =>
    simp only [decode, ho]
    refine ⟨rfl, ?_⟩
    rw [encode, place_operate_not ho, unreadBits, BitVec.and_or_distrib_right, BitVec.and_assoc]
    exact BitVec.or_zero (x := w &&& 0xFFC0)
  | br =>
    simp only [decode, ho]
    exact ⟨rfl, by rw [encode, place_cond_offset9 ho]⟩
  | ld | ldi | st | sti | lea =>
    simp only [decode, ho]
    exact ⟨rfl, by rw [encode, place_reg_offset9 ho]⟩
  | ldr | str =>
    simp only [decode, ho]
    exact ⟨rfl, by rw [encode, place_regs_offset6 ho]⟩
  | jmp =>
    simp only [decode, ho]
    refine ⟨rfl, ?_⟩
    rw [encode, place_base ho, unreadBits, BitVec.and_assoc]
    rfl
  | jsr =>
    simp only [decode, ho]
    split
    next h11 =>
      exact ⟨rfl, by rw [encode, place_offset11 ho h11]⟩
    next h11 =>
      refine ⟨rfl, ?_⟩
      rw [encode, place_link_base ho (bit_eq_zero h11), unreadBits, BitVec.and_assoc]
      rfl
  | rti | res =>
    simp only [decode, ho]
    refine ⟨rfl, ?_⟩
    rw [encode, placeOp_of_opcode ho, place_zero, unreadBits, BitVec.or_zero, BitVec.and_assoc]
    rfl
  | trap =>
    simp only [decode, ho]
    obtain ⟨hwf, hencode, hunread⟩ := decodeTrap_row (bits w 0 8)
    refine ⟨hwf, ?_⟩
    rw [hencode, hunread, encodeTrap, place_vector ho, BitVec.and_assoc]
    rfl

/-- The opcode is read in every form (R92). -/
theorem bits_unreadBits_opcode (i : Instr) : bits (unreadBits i) 12 4 = 0 := by
  cases i <;> (rw [unreadBits]; rfl)

/-- Flipping bits outside a field leaves the field as it is. -/
theorem bits_xor_and_of_outside {m : Word} {lo len : Nat} (w u : Word) (h : bits m lo len = 0) :
    bits (w ^^^ (u &&& m)) lo len = bits w lo len := by
  ext i hi
  have hm : m.getLsbD (lo + i) = false := by simpa [bits, hi] using congrArg (BitVec.getLsbD · i) h
  simp [bits, hm]

/-- Words that agree on every field outside the unread bits of the one decode alike: the decoder picks the same form,
and reads the same fields (R92). -/
theorem decode_eq_of_read_bits {w v : Word}
    (h : ∀ lo len, bits (unreadBits (decode w)) lo len = 0 → bits v lo len = bits w lo len) :
    decode v = decode w := by
  have hop := h 12 4 (bits_unreadBits_opcode _)
  cases ho : Opcode.ofBits (bits w 12 4) with
  | br =>
    simp only [decode, hop, ho, unreadBits] at h ⊢
    rw [h 9 3 rfl, h 0 9 rfl]
  | ld | ldi | st | sti | lea =>
    simp only [decode, hop, ho, unreadBits] at h ⊢
    rw [fieldDst, fieldDst, h 9 3 rfl, h 0 9 rfl]
  | ldr | str =>
    simp only [decode, hop, ho, unreadBits] at h ⊢
    rw [fieldDst, fieldDst, fieldMid, fieldMid, h 9 3 rfl, h 6 3 rfl, h 0 6 rfl]
  | add | and =>
    by_cases h5 : bits w 5 1 = 1#1
    · simp only [decode, hop, ho, if_pos h5, unreadBits] at h ⊢
      rw [fieldDst, fieldDst, fieldMid, fieldMid, h 5 1 rfl, if_pos h5, h 9 3 rfl, h 6 3 rfl, h 0 5 rfl]
    · simp only [decode, hop, ho, if_neg h5, unreadBits] at h ⊢
      simp only [fieldDst, fieldMid, fieldSrc2, h 5 1 rfl, if_neg h5, h 9 3 rfl, h 6 3 rfl, h 0 3 rfl]
  | not =>
    simp only [decode, hop, ho, unreadBits] at h ⊢
    rw [fieldDst, fieldDst, fieldMid, fieldMid, h 9 3 rfl, h 6 3 rfl]
  | jmp =>
    simp only [decode, hop, ho, unreadBits] at h ⊢
    rw [fieldMid, fieldMid, h 6 3 rfl]
  | jsr =>
    by_cases h11 : bits w 11 1 = 1#1
    · simp only [decode, hop, ho, if_pos h11, unreadBits] at h ⊢
      rw [h 11 1 rfl, if_pos h11, h 0 11 rfl]
    · simp only [decode, hop, ho, if_neg h11, unreadBits] at h ⊢
      rw [fieldMid, fieldMid, h 11 1 rfl, if_neg h11, h 6 3 rfl]
  | trap =>
    simp only [decode, hop, ho, (decodeTrap_row _).2.2] at h ⊢
    rw [h 0 8 rfl]
  | rti | res => simp only [decode, hop, ho]

/-- Settles O8: every field that the form reads lies outside its unread bits. -/
theorem unreadBitsIgnored : Obligations.UnreadBitsIgnored := fun w u =>
  decode_eq_of_read_bits fun _ _ => bits_xor_and_of_outside w u

/-- Settles O7: the decoder evaluated on eight fixed words. -/
theorem sampleWordsDecode : Obligations.SampleWordsDecode := by
  unfold Obligations.SampleWordsDecode
  decide

end Sys2Proof
end

section
namespace Sys2Proof.Machine

open Sys2Proof.Claims

/-! What one instruction can do to the state, said once for every instruction (R97). -/

/-- `m` is `s` after MemReads of the listed addresses in turn, each with its poll (R55). -/
inductive Reads : State → List Word → State → Prop where
  | none {s : State} : Reads s [] s
  | read {s m : State} {as : List Word} (a : Word) (h : Reads (s.memRead a).2 as m) : Reads s (a :: as) m

theorem Reads.onlyReads {s m : State} {as : List Word} (h : Reads s as m) : OnlyReads s m := by
  induction h with
  | none => exact .refl _
  | read a _ ih => exact (State.memRead_onlyReads _ a).trans ih

theorem Reads.mem_wf {s m : State} {as : List Word} (h : Reads s as m) (hwf : s.mem.wf) : m.mem.wf := by
  induction h with
  | none => exact hwf
  | read a _ ih => exact ih (State.afterRead_wf hwf a)

theorem Reads.inq_suffix {s m : State} {as : List Word} (h : Reads s as m) : m.inq <:+ s.inq := by
  induction h with
  | none => exact List.suffix_refl _
  | read a _ ih => exact ih.trans (State.afterRead_inq_suffix _ a)

/-- `Effect i s t`: `t` is what the instruction `i` makes of `s`, in one of six ways, each with the registers, the flag
and the addresses that the statements list for `i`. -/
inductive Effect (i : Instr) (s : State) : State → Prop where
  /-- A result register and its flag, after the reads of a load or after none. -/
  | result {m : State} {d : Reg} (v : Word) (hreads : Reads s (readAddrs i s) m) (hresult : resultReg i s = some d)
      (hlink : ¬ linksR7 i) : Effect i s (m.writeResult d v)
  /-- A store, after STI's pointer read or after none. -/
  | store {m : State} {a : Word} (v : Word) (hreads : Reads s (readAddrs i s) m) (haddr : storeAddr i s = some a)
      (hresult : resultReg i s = none) (hlink : ¬ linksR7 i) : Effect i s (m.memWrite a v)
  /-- BR and JMP: a new pc; the old one for a branch that is not taken. -/
  | jump (v : Word) (hi : (∃ c o, i = .br c o) ∨ ∃ b, i = .jmp b) : Effect i s (s.setPc v)
  /-- JSR and JSRR: the link and a new pc. -/
  | call (v : Word) (hi : (∃ o, i = .jsr o) ∨ ∃ b, i = .jsrr b) : Effect i s ((s.setReg .r7 s.pc).setPc v)
  /-- TRAP and its rows: the link and a service. -/
  | service (v : BitVec 8) (hresult : resultReg i s = resultReg (.trap v) s) (hlink : linksR7 i) :
      Effect i s (runService v s.trapEntry)
  /-- A reserved opcode. -/
  | abort (op : BitVec 4) (hi : i = .rti ∧ op = 8 ∨ i = .res ∧ op = 13) : Effect i s (s.abort op)

theorem execBr_effect (c : BitVec 3) (o : BitVec 9) (s : State) :
    Effect (.br c o) s (if branchTaken c s.cc then s.setPc (s.pcRel9 o) else s) := by
  split
  · exact .jump _ (.inl ⟨c, o, rfl⟩)
  · exact .jump s.pc (.inl ⟨c, o, rfl⟩)

/-- GETC writes R0 as TRAP 0x20 does: when there is a byte to read. -/
theorem resultReg_getc (s : State) : resultReg .getc s = resultReg (.trap 0x20) s := by
  by_cases h : s.inq = [] <;> simp [resultReg, h]

/-- IN writes R0 as TRAP 0x23 does: when there is a byte to read. -/
theorem resultReg_in (s : State) : resultReg .in_ s = resultReg (.trap 0x23) s := by
  by_cases h : s.inq = [] <;> simp [resultReg, h]

/-- Every instruction has one of the six effects. -/
theorem exec_effect (i : Instr) (s : State) : ∃ t, exec i s = .next t ∧ Effect i s t := by
  cases i with
  | addR | addI | andR | andI | not | lea => exact ⟨_, rfl, .result _ .none rfl id⟩
  | ld | ldr => exact ⟨_, rfl, .result _ (.read _ .none) rfl id⟩
  | ldi => exact ⟨_, rfl, .result _ (.read _ (.read _ .none)) rfl id⟩
  | st | str => exact ⟨_, rfl, .store _ .none rfl rfl id⟩
  | sti => exact ⟨_, rfl, .store _ (.read _ .none) rfl rfl id⟩
  | br c o => exact ⟨_, rfl, execBr_effect c o s⟩
  | jmp b => exact ⟨_, rfl, .jump _ (.inr ⟨b, rfl⟩)⟩
  | jsr o => exact ⟨_, rfl, .call _ (.inl ⟨o, rfl⟩)⟩
  | jsrr b => exact ⟨_, rfl, .call _ (.inr ⟨b, rfl⟩)⟩
  | trap v => exact ⟨_, rfl, .service v rfl trivial⟩
  | getc => exact ⟨_, rfl, .service 0x20 (resultReg_getc s) trivial⟩
  | in_ => exact ⟨_, rfl, .service 0x23 (resultReg_in s) trivial⟩
  | out => exact ⟨_, rfl, .service 0x21 rfl trivial⟩
  | puts => exact ⟨_, rfl, .service 0x22 rfl trivial⟩
  | putsp => exact ⟨_, rfl, .service 0x24 rfl trivial⟩
  | halt => exact ⟨_, rfl, .service 0x25 rfl trivial⟩
  | rti => exact ⟨_, rfl, .abort 8 (.inl ⟨rfl, rfl⟩)⟩
  | res => exact ⟨_, rfl, .abort 13 (.inr ⟨rfl, rfl⟩)⟩

theorem effect_of_exec {i : Instr} {s t : State} (h : exec i s = .next t) : Effect i s t := by
  obtain ⟨u, hu, heffect⟩ := exec_effect i s
  obtain rfl : u = t := Host.Outcome.next.inj (hu.symm.trans h)
  exact heffect

end Sys2Proof.Machine
end

section
namespace Sys2Proof.Machine

/-! A wait of GETC or IN, said once for both (R31, R192, R195). -/

/-- `readOn` is IN_READ with what follows it: on an empty inq it waits in `w`; else it takes the next byte `b` into R0
with its flag, emits `echo b` and is done. -/
structure ReadsChar (readOn : State → State) (w : ServiceState) (echo : Byte → List Byte) : Prop where
  waits : ∀ s : State, s.inq = [] → readOn s = { s with service := w }
  takes : ∀ (s : State) (b : Byte) (rest : List Byte), s.inq = b :: rest →
    readOn s = (({ s with inq := rest }.emit (echo b)).writeResult .r0 (zext16 b)).trapReturn

theorem serviceGetc_readsChar : ReadsChar serviceGetc .getcWait (fun _ => []) where
  waits s h := by simp only [serviceGetc, State.inRead, h]
  takes s b rest h := by simp only [serviceGetc, State.inRead, h, State.emit_nil]; rfl

theorem serviceInRead_readsChar : ReadsChar serviceInRead .inWait (fun b => [b]) where
  waits s h := by simp only [serviceInRead, State.inRead, h]
  takes s b rest h := by simp only [serviceInRead, State.inRead, h]; rfl

/-- TERM_REQ ends a wait and does nothing more (R245). -/
theorem waitTurn_due (readOn : State → State) {s : State} (h : s.termReq = some 0) : waitTurn readOn s = s.terminate :=
  if_pos (by rw [State.termDue, h]; rfl)

theorem waitTurn_not_due (readOn : State → State) {s : State} (h : s.termReq ≠ some 0) :
    waitTurn readOn s = readOn s.tick :=
  if_neg (by simpa [State.termDue] using h)

theorem serviceTurn_getcWait {s : State} (h : s.service = .getcWait) : serviceTurn s = waitTurn serviceGetc s := by
  rw [serviceTurn, h]

theorem serviceTurn_inWait {s : State} (h : s.service = .inWait) : serviceTurn s = waitTurn serviceInRead s := by
  rw [serviceTurn, h]

theorem serviceTurn_putsLoop {s : State} {p : Word} (h : s.service = .putsLoop p) :
    serviceTurn s = stringTurn putsBytes .putsLoop p s := by
  rw [serviceTurn, h]

theorem serviceTurn_putspLoop {s : State} {p : Word} (h : s.service = .putspLoop p) :
    serviceTurn s = stringTurn putspBytes .putspLoop p s := by
  rw [serviceTurn, h]

end Sys2Proof.Machine
end

section
namespace Sys2Proof.Machine

/-! The invariant (R50, R190, R233, R245). -/

/-- At a boundary of a running block the invariant asks for canonical memory alone. -/
theorem State.Inv.of_boundary {s : State} (hwf : s.mem.wf) (hrun : s.run = .running) (hidle : s.service = .idle) :
    s.Inv where
  mem_wf := hwf
  linked h := by simp [hrun, hidle] at h
  abort_site op addr h := by simp [hrun] at h
  loop_endless p h := by simp [hidle] at h
  service_run h := absurd hidle h

/-- Inside a service, and after HALT, it asks for the link too, and for a string loop that finds no zero word. -/
theorem State.Inv.of_linked {s : State} (hwf : s.mem.wf) (hlink : s.reg .r7 = s.pc)
    (hrun : s.run = .running ∨ s.run = .halted ∧ s.service = .idle)
    (hloop : ∀ p, s.service = .putsLoop p ∨ s.service = .putspLoop p → ∀ a, s.peek a ≠ 0) : s.Inv where
  mem_wf := hwf
  linked _ := hlink
  abort_site op addr h := by
    rcases hrun with hrun | ⟨hrun, -⟩ <;> simp [hrun] at h
  loop_endless := hloop
  service_run h := .inl (hrun.resolve_right fun hhalt => h hhalt.2)

/-- A reserved opcode at a boundary. -/
theorem State.abort_inv {s : State} (hwf : s.mem.wf) (hidle : s.service = .idle) {op : BitVec 4}
    (hop : op = 8 ∨ op = 13) :
    (s.abort op).Inv where
  mem_wf := hwf
  linked h := by simp [hidle] at h
  abort_site op' addr h := by
    obtain ⟨rfl, rfl⟩ := RunState.aborted.inj h
    exact ⟨hop, (BitVec.sub_add_cancel s.pc 1).symm⟩
  loop_endless p h := by simp [hidle] at h
  service_run h := absurd hidle h

/-- TERM_REQ at a boundary or in a wait. -/
theorem State.terminate_inv {s : State} (hi : s.Inv)
    (hwait : s.service = .idle ∨ s.service = .getcWait ∨ s.service = .inWait) :
    s.terminate.Inv where
  mem_wf := hi.mem_wf
  linked h := hi.linked (.inl (h.resolve_right (by simp)))
  abort_site op addr h := by simp at h
  loop_endless := hi.loop_endless
  service_run h := .inr ⟨rfl, hwait.resolve_left h⟩

/-- A service that was not in a string loop comes to one only in a memory without a zero word (R194, R196). -/
theorem runService_loop_endless (v : BitVec 8) {s : State} (hidle : s.service = .idle) (p : Word)
    (h : (runService v s).service = .putsLoop p ∨ (runService v s).service = .putspLoop p) (a : Word) :
    s.peek a ≠ 0 := by
  unfold runService at h
  cases hs : serviceOf v with
  | none => simp [hs, hidle] at h
  | some x =>
    cases x with
    | getc =>
      simp only [hs] at h
      rcases serviceGetc_cases s with ⟨-, hget⟩ | ⟨b, rest, -, hget⟩ <;> simp [hget] at h
    | in_ =>
      simp only [hs, serviceIn] at h
      rcases serviceInRead_cases (s.emit Config.inPrompt) with ⟨-, hget⟩ | ⟨b, rest, -, hget⟩ <;> simp [hget] at h
    | out => simp [hs, serviceOut, hidle] at h
    | halt => simp [hs, serviceHalt, hidle] at h
    | puts =>
      rcases servicePuts_cases s with ⟨bs, -, hputs⟩ | ⟨hnonzero, -⟩
      · simp [hs, hputs, hidle] at h
      · exact hnonzero a
    | putsp =>
      rcases servicePutsp_cases s with ⟨bs, -, hputs⟩ | ⟨hnonzero, -⟩
      · simp [hs, hputs, hidle] at h
      · exact hnonzero a

/-- A service leaves the block running, or it is HALT and is over. -/
theorem runService_running_or_halted (v : BitVec 8) {s : State} (hrun : s.run = .running) (hidle : s.service = .idle) :
    (runService v s).run = .running ∨ (runService v s).run = .halted ∧ (runService v s).service = .idle := by
  by_cases hv : v = 0x25
  · subst hv
    exact .inr ⟨rfl, hidle⟩
  · obtain ⟨-, -, -, -, -, -, hrun', -⟩ := runService_effect v s
    rw [hrun', if_neg hv]
    exact .inl hrun

/-- An instruction run at a boundary keeps the invariant. -/
theorem exec_inv {i : Instr} {s t : State} (hwf : s.mem.wf) (hrun : s.run = .running) (hidle : s.service = .idle)
    (h : exec i s = .next t) : t.Inv := by
  cases effect_of_exec h with
  | result v hm =>
    exact .of_boundary (hm.mem_wf hwf) (hm.onlyReads.run.trans hrun) (hm.onlyReads.service.trans hidle)
  | store v hm =>
    exact .of_boundary (State.memWrite_wf (hm.mem_wf hwf) _ v) (hm.onlyReads.run.trans hrun)
      (hm.onlyReads.service.trans hidle)
  | jump | call => exact .of_boundary hwf hrun hidle
  | service v =>
    obtain ⟨hpc, hmem, hregs, -⟩ := runService_effect v s.trapEntry
    have hloop := runService_loop_endless v (s := s.trapEntry) hidle
    refine .of_linked (hmem ▸ hwf) ?_ (runService_running_or_halted v (s := s.trapEntry) hrun hidle) fun p hp a => ?_
    · rw [hregs .r7 (by decide), hpc, State.reg_trapEntry, if_pos rfl, State.trapEntry_pc]
    · rw [State.peek_congr hmem]
      exact hloop p hp a
  | abort op hop => exact State.abort_inv hwf hidle (hop.imp And.right And.right)

/-- One moment of a wait keeps the invariant: it ends, waits on, or takes its byte. -/
theorem waitTurn_inv {readOn : State → State} {w : ServiceState} {echo : Byte → List Byte}
    (hread : ReadsChar readOn w echo) {s : State} (hi : s.Inv) (hrun : s.run = .running) (hs : s.service = w)
    (hw : w = .getcWait ∨ w = .inWait) :
    (waitTurn readOn s).Inv := by
  by_cases hdue : s.termReq = some 0
  · rw [waitTurn_due _ hdue]
    exact State.terminate_inv hi (.inr (hs ▸ hw))
  · rw [waitTurn_not_due _ hdue]
    cases hinq : s.inq with
    | nil =>
      rw [hread.waits s.tick hinq]
      have hlink : s.reg .r7 = s.pc := hi.linked (.inl (by rcases hw with rfl | rfl <;> simp [hs]))
      refine .of_linked hi.mem_wf hlink (.inl hrun) fun p hp => ?_
      rcases hw with rfl | rfl <;> simp at hp
    | cons b rest =>
      rw [hread.takes s.tick b rest hinq]
      exact .of_boundary hi.mem_wf hrun rfl

/-- One turn of an endless string loop keeps the invariant: there is no zero word to end it. -/
theorem stringTurn_inv (f : Word → List Byte) {again : Word → ServiceState} {p : Word} {s : State} (hi : s.Inv)
    (hrun : s.run = .running) (hs : s.service = .putsLoop p ∨ s.service = .putspLoop p) :
    (stringTurn f again p s).Inv := by
  have hnonzero := hi.loop_endless p hs
  have hlink : s.reg .r7 = s.pc := hi.linked (.inl (by rcases hs with hs | hs <;> simp [hs]))
  rw [stringTurn_nonzero f again (hnonzero p)]
  exact .of_linked hi.mem_wf hlink (.inl hrun) fun _ _ => hnonzero

theorem serviceTurn_inv {s : State} (hi : s.Inv) (hrun : s.run = .running) : (serviceTurn s).Inv := by
  cases hs : s.service with
  | idle => rwa [serviceTurn, hs]
  | getcWait =>
    rw [serviceTurn_getcWait hs]
    exact waitTurn_inv serviceGetc_readsChar hi hrun hs (.inl rfl)
  | inWait =>
    rw [serviceTurn_inWait hs]
    exact waitTurn_inv serviceInRead_readsChar hi hrun hs (.inr rfl)
  | putsLoop p =>
    rw [serviceTurn_putsLoop hs]
    exact stringTurn_inv putsBytes hi hrun (.inl hs)
  | putspLoop p =>
    rw [serviceTurn_putspLoop hs]
    exact stringTurn_inv putspBytes hi hrun (.inr hs)

/-- Settles O4: a step is TERM_REQ at a boundary, an instruction run there, or one turn of a service. -/
theorem stepKeepsInvariant : Obligations.StepKeepsInvariant := by
  intro s t hi h
  obtain ⟨hrun, ⟨hidle, -, rfl⟩ | ⟨hidle, -, hexec⟩ | ⟨-, rfl⟩⟩ := step_cases h
  · exact State.terminate_inv hi (.inl hidle)
  · have hwf : (s.tick.afterRead s.pc).mem.wf := State.afterRead_wf (s := s.tick) hi.mem_wf s.pc
    refine exec_inv (s := (s.tick.afterRead s.pc).setPc (s.pc + 1)) hwf ?_ ?_ hexec
    · rw [State.setPc_run, State.afterRead_run, State.tick_run, hrun]
    · rw [State.setPc_service, State.afterRead_service, State.tick_service, hidle]
  · exact serviceTurn_inv hi hrun

/-- Settles O2: reset is a boundary of a running block with no cell of memory listed. -/
theorem invariantAtReset : Obligations.InvariantAtReset :=
  .of_boundary ⟨List.Pairwise.nil, fun _ h => nomatch h⟩ rfl rfl

/-- Settles O3: the loader changes memory alone, and keeps it canonical. -/
theorem invariantAfterBoot : Obligations.InvariantAfterBoot := by
  intro args s h
  rw [boot] at h
  split at h
  · nomatch h
  · obtain ⟨images, -, rfl⟩ := Option.map_eq_some_iff.mp h
    obtain ⟨-, -, -, -, -, hrun, hidle, -⟩ := (loadImages_only_memory images State.reset).frame
    exact .of_boundary (loadImages_wf images invariantAtReset.mem_wf) hrun hidle

end Sys2Proof.Machine
end

section
namespace Sys2Proof.Machine

/-! Output and input along a run (R35). -/

/-- The output has only grown at its end, and the input has only been consumed from its front. -/
structure IoForward (s t : State) : Prop where
  out : s.out <+: t.out
  inq : t.inq <:+ s.inq

theorem IoForward.of_same {s t : State} (hout : t.out = s.out) (hinq : t.inq = s.inq) : IoForward s t :=
  ⟨hout ▸ List.prefix_refl _, hinq ▸ List.suffix_refl _⟩

theorem IoForward.trans {s t u : State} (h : IoForward s t) (h' : IoForward t u) : IoForward s u :=
  ⟨h.out.trans h'.out, h'.inq.trans h.inq⟩

theorem Reads.ioForward {s m : State} {as : List Word} (h : Reads s as m) : IoForward s m :=
  ⟨h.onlyReads.out ▸ List.prefix_refl _, h.inq_suffix⟩

theorem exec_ioForward {i : Instr} {s t : State} (h : exec i s = .next t) : IoForward s t := by
  cases effect_of_exec h with
  | result v hm => exact hm.ioForward.trans (.of_same rfl rfl)
  | store v hm => exact hm.ioForward.trans (.of_same rfl rfl)
  | jump | call | abort => exact .of_same rfl rfl
  | service v =>
    obtain ⟨-, -, -, -, -, -, -, hout, hinq⟩ := runService_effect v s.trapEntry
    exact ⟨hout, hinq⟩

theorem waitTurn_ioForward {readOn : State → State} {w : ServiceState} {echo : Byte → List Byte}
    (hread : ReadsChar readOn w echo) (s : State) : IoForward s (waitTurn readOn s) := by
  by_cases hdue : s.termReq = some 0
  · rw [waitTurn_due _ hdue]
    exact .of_same rfl rfl
  · rw [waitTurn_not_due _ hdue]
    cases hinq : s.inq with
    | nil =>
      rw [hread.waits s.tick hinq]
      exact .of_same rfl rfl
    | cons b rest =>
      rw [hread.takes s.tick b rest hinq]
      exact ⟨List.prefix_append s.out (echo b), hinq ▸ List.suffix_cons b rest⟩

theorem stringTurn_ioForward (f : Word → List Byte) (again : Word → ServiceState) (p : Word) (s : State) :
    IoForward s (stringTurn f again p s) := by
  unfold stringTurn
  split
  · exact .of_same rfl rfl
  · exact ⟨List.prefix_append s.out _, List.suffix_refl _⟩

theorem serviceTurn_ioForward (s : State) : IoForward s (serviceTurn s) := by
  unfold serviceTurn
  split
  · exact .of_same rfl rfl
  · exact waitTurn_ioForward serviceGetc_readsChar s
  · exact waitTurn_ioForward serviceInRead_readsChar s
  · exact stringTurn_ioForward _ _ _ s
  · exact stringTurn_ioForward _ _ _ s

theorem step_ioForward {s t : State} (h : step s = .next t) : IoForward s t := by
  obtain ⟨-, ⟨-, -, rfl⟩ | ⟨-, -, hexec⟩ | ⟨-, rfl⟩⟩ := step_cases h
  · exact .of_same rfl rfl
  · have hfetch : IoForward s.tick (s.tick.afterRead s.pc) := (Reads.read s.pc .none).ioForward
    have hrun := exec_ioForward hexec
    exact ⟨hfetch.out.trans hrun.out, hrun.inq.trans hfetch.inq⟩
  · exact serviceTurn_ioForward s

/-- Settles O52, by induction over the run. -/
theorem outputGrowsInputShrinks : Obligations.OutputGrowsInputShrinks := by
  intro s t h
  have hforward : IoForward s t := by
    induction h with
    | refl => exact .of_same rfl rfl
    | tail _ hstep ih => exact ih.trans (step_ioForward hstep)
  exact ⟨hforward.out, hforward.inq⟩

end Sys2Proof.Machine
end

section
namespace Sys2Proof.Machine

open Sys2Proof.Claims

/-! The reserved opcodes (R231 to R241). -/

/-- The opcode number in a word is that of the decoded form (R81). -/
theorem fld_15_12 (w : Word) : fld w 15 12 = (decode w).opcode.toBits.toNat := by
  rw [decode_opcode, Opcode.toBits_ofBits, bits_toNat]
  rfl

theorem decode_rti {w : Word} (hop : fld w 15 12 = 8) : decode w = .rti := by
  rw [decode, opcode_of_fld (o := .rti) hop]

theorem decode_res {w : Word} (hop : fld w 15 12 = 13) : decode w = .res := by
  rw [decode, opcode_of_fld (o := .res) hop]

theorem exec_rti (s : State) : exec .rti s = .next (s.abort 8) := rfl

theorem exec_res (s : State) : exec .res s = .next (s.abort 13) := rfl

/-- An instruction that aborts a running block is RTI or RES, and it names its opcode and pc - 1 (R233, R240, R241). -/
theorem exec_aborted {i : Instr} {s t : State} (hrun : s.run = .running) (h : exec i s = .next t) {op : BitVec 4}
    {addr : Word} (habort : t.run = .aborted op addr) : (i = .rti ∧ op = 8 ∨ i = .res ∧ op = 13) ∧ addr = s.pc - 1 := by
  cases effect_of_exec h with
  | result v hm => simp [hm.onlyReads.run, hrun] at habort
  | store v hm => simp [hm.onlyReads.run, hrun] at habort
  | jump | call => simp [hrun] at habort
  | service v =>
    obtain ⟨-, -, -, -, -, -, hrun', -⟩ := runService_effect v s.trapEntry
    rw [hrun', State.trapEntry_run, hrun] at habort
    split at habort <;> nomatch habort
  | abort op' hop =>
    obtain ⟨rfl, rfl⟩ := RunState.aborted.inj habort
    exact ⟨hop, rfl⟩

/-- Settles O9: the only effect that aborts is that of RTI and RES, which are the forms of opcodes 8 and 13. -/
theorem onlyReservedOpcodesAbort : Obligations.OnlyReservedOpcodesAbort := by
  intro w s hrun
  obtain ⟨t, ht⟩ := exec_next (decode w) s
  refine ⟨t, ht, ⟨fun ⟨op, addr, habort⟩ => ?_, ?_⟩, fun op addr habort => ?_⟩
  · rw [fld_15_12]
    obtain ⟨⟨hi, -⟩ | ⟨hi, -⟩, -⟩ := exec_aborted hrun ht habort <;> rw [hi] <;> decide
  · rintro (hop | hop)
    · rw [decode_rti hop] at ht
      exact ⟨8, s.pc - 1, Host.Outcome.next.inj ht ▸ rfl⟩
    · rw [decode_res hop] at ht
      exact ⟨13, s.pc - 1, Host.Outcome.next.inj ht ▸ rfl⟩
  · rw [fld_15_12]
    obtain ⟨⟨hi, rfl⟩ | ⟨hi, rfl⟩, haddr⟩ := exec_aborted hrun ht habort <;> rw [hi] <;> exact ⟨rfl, haddr⟩

/-- An abort changes `run` alone, to a state whose step is the fault and whose status is not success (R233, R241). -/
theorem State.abort_changes_run (s : State) (op : BitVec 4) :
    (s.abort op).run = .aborted op (s.pc - 1) ∧ RegsSame s (s.abort op) ∧ (s.abort op).cc = s.cc ∧
      (s.abort op).pc = s.pc ∧ MemSame s (s.abort op) ∧ InputSame s (s.abort op) ∧ (s.abort op).out = s.out ∧
      (s.abort op).service = s.service ∧ (s.abort op).termReq = s.termReq ∧
      step (s.abort op) = .fault (.reservedOpcode op (s.pc - 1)) ∧ (s.abort op).exitStatus = some .abort :=
  ⟨rfl, fun _ => rfl, rfl, rfl, s.peek_abort op, ⟨rfl, rfl⟩, rfl, rfl, rfl, rfl, rfl⟩

/-- Settles O43: opcode 8 is RTI, and RTI is an abort that names it. -/
theorem rtiAborts : Obligations.RtiAborts :=
  ⟨fun _ => decode_rti, fun s => ⟨_, exec_rti s, s.abort_changes_run 8⟩⟩

/-- Settles O44: opcode 13 is RES, and RES is an abort that names it. -/
theorem resAborts : Obligations.ResAborts :=
  ⟨fun _ => decode_res, fun s => ⟨_, exec_res s, s.abort_changes_run 13⟩⟩

end Sys2Proof.Machine
end

section
namespace Sys2Proof.Machine

open Sys2Proof.Claims

/-! Where a step is taken, and what it is (R97, R100, R245). -/

theorem step_due {s : State} (hrun : s.run = .running) (hidle : s.service = .idle) (hdue : s.termReq = some 0) :
    step s = .next s.terminate := by
  have hnow : s.termDue = true := by rw [State.termDue, hdue]; rfl
  simp only [step, hrun, hidle, hnow, if_true]

theorem step_service {s : State} (hrun : s.run = .running) (hbusy : s.service ≠ .idle) :
    step s = .next (serviceTurn s) := by
  cases hs : s.service with
  | idle => exact absurd hs hbusy
  | getcWait | inWait | putsLoop | putspLoop => simp only [step, hrun, hs]

/-- Settles O49: a running block is at a boundary, where TERM_REQ lands or an instruction answers, or in a service. -/
theorem runningAlwaysSteps : Obligations.RunningAlwaysSteps := by
  intro s hrun
  by_cases hidle : s.service = .idle
  · by_cases hdue : s.termReq = some 0
    · exact ⟨_, step_due hrun hidle hdue⟩
    · rw [step_boundary hrun hidle hdue]
      exact exec_next _ _
  · exact ⟨_, step_service hrun hidle⟩

/-- Settles O47: RUNNING alone takes steps, and the fault of every other execution state names it. -/
theorem finalStatesTakeNoStep : Obligations.FinalStatesTakeNoStep := by
  intro s hfinal
  refine ⟨step_ne_next hfinal, fun h => ?_, fun h => ?_, fun op addr h => ?_⟩ <;> rw [step, h]

/-- Settles O48, by induction over the run: the last step would be one from a final state. -/
theorem finalStatesAreFinal : Obligations.FinalStatesAreFinal := by
  intro s t hfinal h
  induction h with
  | refl => rfl
  | tail _ hstep ih =>
    subst ih
    exact absurd hstep (step_ne_next hfinal _)

/-- Settles O50: at a boundary and in both waits the step is TERM_REQ's, which leaves RUNNING. -/
theorem terminationRequestLands : Obligations.TerminationRequestLands := by
  intro s hrun hwait hdue
  have hfinal : RunState.terminated ≠ .running := by decide
  refine ⟨?_, step_ne_next hfinal⟩
  rcases hwait with hidle | hgetc | hin
  · exact step_due hrun hidle hdue
  · rw [step_service hrun (by rw [hgetc]; decide), serviceTurn_getcWait hgetc, waitTurn_due _ hdue]
    rfl
  · rw [step_service hrun (by rw [hin]; decide), serviceTurn_inWait hin, waitTurn_due _ hdue]
    rfl

/-- Settles O45: the boundary's step, with the fetch written out. -/
theorem stepRunsDecodedInstruction : Obligations.StepRunsDecodedInstruction := by
  intro s hboundary
  obtain ⟨hrun, hidle, hdue⟩ := hboundary
  exact step_boundary hrun hidle hdue

/-- A fetch that does not poll reads the word that memory holds at pc (R97, R98). -/
theorem step_plain_fetch {s : State} (hboundary : AtBoundary s) (hpc : s.pc ≠ 0xFE00) :
    step s = exec (decode (s.peek s.pc)) { s with pc := s.pc + 1, termReq := s.termReq.map (· - 1) } := by
  rw [stepRunsDecodedInstruction s hboundary]
  simp only [State.memRead, State.afterRead_plain _ hpc]
  rfl

/-- 0x0000 is a branch with no condition (R285). -/
theorem exec_zero (s : State) : exec (decode 0x0000) s = .next s := by
  have hnot : branchTaken 0 s.cc = false := by cases s.cc <;> rfl
  change Host.Outcome.next (if branchTaken 0 s.cc then s.setPc (s.pcRel9 0) else s) = .next s
  rw [hnot]
  rfl

/-- Settles O57: the fetch does not poll, and the word is a branch not taken. -/
theorem zeroWordSlides : Obligations.ZeroWordSlides := by
  intro s hboundary hpc hzero
  rw [step_plain_fetch hboundary hpc, hzero, exec_zero]

/-- Every store is a store of its register at the address it names, after reads or after none (R165 to R167). -/
theorem exec_store {i : Instr} {r : Reg} {s : State} {a : Word}
    (hi : (∃ o, i = .st r o) ∨ (∃ o, i = .sti r o) ∨ (∃ b o, i = .str r b o)) (ha : storeAddr i s = some a) :
    ∃ m, Reads s (readAddrs i s) m ∧ exec i s = .next (m.memWrite a (s.reg r)) := by
  obtain ⟨o, rfl⟩ | ⟨o, rfl⟩ | ⟨b, o, rfl⟩ := hi <;> obtain rfl := Option.some.inj ha
  · exact ⟨s, .none, rfl⟩
  · exact ⟨_, .read _ .none, rfl⟩
  · exact ⟨s, .none, rfl⟩

/-- Settles O31: the store leaves the block at the same boundary, and the fetch of its address does not poll. -/
theorem storedWordIsFetched : Obligations.StoredWordIsFetched := by
  intro i r s t hi hboundary hpc haddr hexec
  obtain ⟨m, hm, hstore⟩ := exec_store hi haddr
  obtain rfl : m.memWrite s.pc (s.reg r) = t := Host.Outcome.next.inj (hstore.symm.trans hexec)
  obtain ⟨hrun, hidle, hdue⟩ := hboundary
  have hreads := hm.onlyReads
  have hboundary' : AtBoundary (m.memWrite s.pc (s.reg r)) :=
    ⟨hreads.run.trans hrun, hreads.service.trans hidle, hreads.termReq ▸ hdue⟩
  have hword : (m.memWrite s.pc (s.reg r)).peek m.pc = s.reg r := by
    rw [State.peek_memWrite, if_pos hreads.pc]
  rw [step_plain_fetch hboundary' (by rw [State.memWrite_pc, hreads.pc]; exact hpc), State.memWrite_pc, hword]

end Sys2Proof.Machine
end

section
namespace Sys2Proof.Machine

open Sys2Proof.Claims

/-! The keyboard poll (R30, R56, R60, R98). -/

/-- Zero extension as the statements say it (R10). -/
theorem zext16_eq_zextSpec (b : Byte) : zext16 b = zextSpec b := by
  have := b.isLt
  apply BitVec.eq_of_toNat_eq
  rw [zext16_toNat, zextSpec, BitVec.toNat_ofNat, Nat.mod_eq_of_lt (by omega)]

/-- A poll that finds a byte: KBSR and KBDR are written and the byte is consumed. -/
theorem State.kbPoll_found {s : State} {b : Byte} {rest : List Byte} (hinq : s.inq = b :: rest)
    (havail : Config.avail s.polls = true) :
    s.kbPoll.peek 0xFE00 = 0x8000 ∧ s.kbPoll.peek 0xFE02 = zextSpec b ∧
      (∀ x, x ≠ 0xFE00 → x ≠ 0xFE02 → s.kbPoll.peek x = s.peek x) ∧ s.kbPoll.inq = rest := by
  rcases s.kbPoll_cases with ⟨b', rest', hinq', -, h⟩ | ⟨hnone, -⟩
  · obtain ⟨rfl, rfl⟩ : b' = b ∧ rest' = rest := List.cons.inj (hinq'.symm.trans hinq)
    refine ⟨?_, ?_, fun x hs hd => s.kbPoll_peek hs hd, by rw [h]; rfl⟩
    · rw [h, kbsrAddr_eq, State.peek_memWrite, if_neg kbsrAddr_ne_kbdrAddr, State.peek_memWrite, if_pos rfl]
      rfl
    · rw [h, kbdrAddr_eq, State.peek_memWrite, if_pos rfl, zext16_eq_zextSpec]
  · simp [hinq, havail] at hnone

/-- A poll that finds none: KBSR is cleared and nothing else happens. -/
theorem State.kbPoll_missed {s : State} (hnone : s.inq = [] ∨ Config.avail s.polls = false) :
    MemAfter s s.kbPoll 0xFE00 0x0000 ∧ s.kbPoll.inq = s.inq := by
  rcases s.kbPoll_cases with ⟨b, rest, hinq, havail, -⟩ | ⟨-, h⟩
  · simp [hinq, havail] at hnone
  · rw [h]
    exact ⟨State.memWrite_memAfter _ Config.kbsrAddr 0, rfl⟩

/-- Settles O21: only 0xFE00 polls, and a poll finds a byte or finds none. -/
theorem memReadPollsOnlyKbsr : Obligations.MemReadPollsOnlyKbsr := by
  intro a s
  refine ⟨rfl, s.afterRead_plain, fun ha => ?_⟩
  subst ha
  have hreads := s.memRead_onlyReads 0xFE00
  refine ⟨hreads.regsSame, hreads.pc, hreads.cc, hreads.out, hreads.controlSame, ?_⟩
  rw [State.memRead_snd, kbsrAddr_eq, State.afterRead_kbsr]
  cases hinq : s.inq with
  | nil =>
    have hmissed := State.kbPoll_missed (.inl hinq)
    rwa [hinq] at hmissed
  | cons b rest =>
    cases havail : Config.avail s.polls with
    | true => exact State.kbPoll_found hinq havail
    | false =>
      have hmissed := State.kbPoll_missed (.inr havail)
      rwa [hinq] at hmissed

/-- Settles O22: the value read is the one the poll left, also over a word stored before it. -/
theorem kbsrReadsReadyOrZero : Obligations.KbsrReadsReadyOrZero := fun s =>
  ⟨s.memRead_kbsr_value, rfl, fun v =>
    ⟨(s.memWrite_memAfter 0xFE00 v).1, (s.memWrite 0xFE00 v).memRead_kbsr_value⟩⟩

section

variable {s : State} (hboundary : AtBoundary s) (hpc : s.pc = 0xFE00)
include hboundary hpc

/-- The fetch at KBSR runs the word that its own poll leaves there (R98). -/
theorem step_fetch_kbsr : step s = exec (decode (s.tick.kbPoll.peek 0xFE00)) (s.tick.kbPoll.setPc 0xFE01) := by
  obtain ⟨hrun, hidle, hdue⟩ := hboundary
  have hkbsr : s.tick.pc = Config.kbsrAddr := hpc
  have hnext : Config.kbsrAddr + 1 = 0xFE01 := by decide
  simp only [step_boundary hrun hidle hdue, runInstr, State.fetch_fst, State.fetch_snd, hkbsr, hnext,
    State.afterRead_kbsr]
  rfl

/-- No byte found: the word 0x0000 runs. -/
theorem step_fetch_missed (hnone : s.inq = [] ∨ Config.avail s.polls = false) :
    step s = .next (s.tick.kbPoll.setPc 0xFE01) := by
  obtain ⟨⟨hword, -⟩, -⟩ := State.kbPoll_missed (s := s.tick) hnone
  rw [step_fetch_kbsr hboundary hpc, hword, exec_zero]

/-- A byte found: the word 0x8000 runs, which is RTI. -/
theorem step_fetch_found {b : Byte} {rest : List Byte} (hinq : s.inq = b :: rest)
    (havail : Config.avail s.polls = true) :
    step s = .next ((s.tick.kbPoll.setPc 0xFE01).abort 8) := by
  obtain ⟨hword, -⟩ := State.kbPoll_found (s := s.tick) hinq havail
  have hrti : decode 0x8000 = .rti := by decide
  rw [step_fetch_kbsr hboundary hpc, hword, hrti, exec_rti]

end

/-- Settles O46: the fetched word is the one the poll left in KBSR, 0x0000 or 0x8000. -/
theorem fetchAtKbsrPolls : Obligations.FetchAtKbsrPolls := by
  intro s hboundary hpc
  have hregs : RegsSame s s.tick.kbPoll := s.tick.reg_kbPoll
  have hcc := s.tick.kbPoll_cc
  have hout := s.tick.kbPoll_out
  have hrun := s.tick.kbPoll_run.trans hboundary.1
  cases hinq : s.inq with
  | nil =>
    obtain ⟨hmem, -⟩ := State.kbPoll_missed (s := s.tick) (.inl hinq)
    exact ⟨_, step_fetch_missed hboundary hpc (.inl hinq), rfl, hregs, hcc, hout, hrun, hmem⟩
  | cons b rest =>
    cases havail : Config.avail s.polls with
    | true =>
      have haddr : (0xFE01 : Word) - 1 = 0xFE00 := by decide
      obtain ⟨hkbsr, hkbdr, -, hrest⟩ := State.kbPoll_found (s := s.tick) hinq havail
      exact ⟨_, step_fetch_found hboundary hpc hinq havail, rfl, hregs, hcc, hout,
        congrArg (RunState.aborted 8) haddr, hkbsr, hkbdr, hrest⟩
    | false =>
      obtain ⟨hmem, hrest⟩ := State.kbPoll_missed (s := s.tick) (.inr havail)
      exact ⟨_, step_fetch_missed hboundary hpc (.inr havail), rfl, hregs, hcc, hout, hrun, hmem, hrest.trans hinq⟩

end Sys2Proof.Machine
end

section
namespace Sys2Proof.Machine

open Sys2Proof.Claims

/-! TRAP for every vector, and the rows of the services (R190, R191, R200). -/

theorem exec_trap (v : BitVec 8) (s : State) : exec (.trap v) s = .next (runService v s.trapEntry) := rfl

/-- The row that the decoder picks for a vector means TRAP of it (R191). -/
theorem exec_decodeTrap (v : BitVec 8) (s : State) : exec (decodeTrap v) s = exec (.trap v) s := by
  cases hs : serviceOf v with
  | none => rw [decodeTrap, hs]
  | some x =>
    rw [decodeTrap, exec_trap, runService, hs]
    cases x <;> rfl

/-- Settles O33: the service finds the link in R7 and leaves it there. -/
theorem trapLinksAndContinues : Obligations.TrapLinksAndContinues := by
  intro v s
  obtain ⟨hpc, hmem, hregs, hother, hpolls, htermReq, hrun, -, -⟩ := runService_effect v s.trapEntry
  refine ⟨_, exec_trap v s, ?_, hpc, State.peek_congr hmem, fun r h7 h0 => ?_, fun hgetc hin => ?_, hpolls,
    htermReq, hrun⟩
  · rw [hregs .r7 (by decide), State.reg_trapEntry, if_pos rfl]
  · rw [hregs r h0, State.reg_trapEntry, if_neg h7]
  · obtain ⟨hfile, hcc, hinq⟩ := hother hgetc hin
    refine ⟨?_, hcc, hinq⟩
    rw [State.reg_congr hfile, State.reg_trapEntry, if_neg (by decide)]

/-- Settles O35: opcode 15 decodes by its vector alone. -/
theorem serviceRowsAreTraps : Obligations.ServiceRowsAreTraps := by
  have hvector : ∀ w, fld w 7 0 = (BitVec.ofNat 8 (fld w 7 0)).toNat := fun w =>
    (Nat.mod_eq_of_lt (Nat.mod_lt _ (by decide))).symm
  refine ⟨fun w s hop => ?_, fun w hop => ?_⟩
  · rw [decode_trap hop (hvector w), exec_decodeTrap]
  · exact ⟨decode_trap (v := 0x20) hop, decode_trap (v := 0x21) hop, decode_trap (v := 0x22) hop,
      decode_trap (v := 0x23) hop, decode_trap (v := 0x24) hop, decode_trap (v := 0x25) hop⟩

end Sys2Proof.Machine
end

section
namespace Sys2Proof.Machine

open Sys2Proof.Claims

/-! GETC and IN as the statements say them (R192, R195, R293). -/

/-- After the link and whatever was emitted, a read takes the byte at the head of the input (R192, R195). -/
theorem ReadsChar.charAccepted {readOn : State → State} {w : ServiceState} {echo : Byte → List Byte}
    (hread : ReadsChar readOn w echo) {s : State} (bs : List Byte) {b : Byte} {rest : List Byte}
    (hinq : s.inq = b :: rest) :
    CharAccepted s (readOn (s.trapEntry.emit bs)) b rest (bs ++ echo b) := by
  rw [hread.takes (s.trapEntry.emit bs) b rest hinq]
  refine ⟨?_, ?_, fun r h0 h7 => ?_, flagOf_zext16 b, rfl, fun _ => rfl, rfl, rfl, List.append_assoc _ _ _, rfl,
    rfl, rfl⟩
  · simp [State.reg, zext16_eq_zextSpec]
  · simp [State.reg]
  · simp [State.reg, h0, h7]

/-- With no input left it waits, linked and its output emitted (R31, R245). -/
theorem ReadsChar.charAwaited {readOn : State → State} {w : ServiceState} {echo : Byte → List Byte}
    (hread : ReadsChar readOn w echo) {s : State} (bs : List Byte) (hinq : s.inq = []) :
    CharAwaited s (readOn (s.trapEntry.emit bs)) w bs := by
  rw [hread.waits (s.trapEntry.emit bs) hinq]
  obtain ⟨hregs, hcc, hpc, hmem, hinput, hout, hrun, -, htermReq⟩ := s.trapEntry_emit_linkAndEmit bs
  exact ⟨hregs, hcc, hpc, hmem, hinput, hout, hrun, rfl, htermReq⟩

theorem exec_getc (s : State) : exec .getc s = .next (serviceGetc (s.trapEntry.emit [])) := by
  rw [State.emit_nil]
  rfl

theorem exec_in (s : State) : exec .in_ s = .next (serviceInRead (s.trapEntry.emit Config.inPrompt)) := rfl

/-- Settles O36: GETC reads after the link, with no prompt and no echo. -/
theorem getcReadsWithoutEcho : Obligations.GetcReadsWithoutEcho := fun s =>
  ⟨_, exec_getc s, fun _ _ => serviceGetc_readsChar.charAccepted [], serviceGetc_readsChar.charAwaited []⟩

/-- Settles O39: IN reads after the link and the prompt, and echoes once. -/
theorem inPromptsAndEchoes : Obligations.InPromptsAndEchoes := fun s =>
  ⟨_, exec_in s, fun _ _ => serviceInRead_readsChar.charAccepted Config.inPrompt,
    serviceInRead_readsChar.charAwaited Config.inPrompt⟩

/-- One moment of a wait: the step is the turn of the read it waits in. -/
theorem step_wait {s : State} (hrun : s.run = .running) (hwait : s.service = .getcWait ∨ s.service = .inWait) :
    ∃ readOn echo, ReadsChar readOn s.service echo ∧ step s = .next (waitTurn readOn s) ∧
      ∀ b, echo b = if s.service = .inWait then [b] else [] := by
  rcases hwait with hs | hs <;> rw [step_service hrun (by rw [hs]; decide)]
  · exact ⟨serviceGetc, _, hs ▸ serviceGetc_readsChar, by rw [serviceTurn_getcWait hs], fun b => by simp [hs]⟩
  · exact ⟨serviceInRead, _, hs ▸ serviceInRead_readsChar, by rw [serviceTurn_inWait hs], fun b => by simp [hs]⟩

section

variable {s : State} (hrun : s.run = .running) (hwait : s.service = .getcWait ∨ s.service = .inWait)
include hrun hwait

/-- With nothing to read the wait goes on, one moment nearer to TERM_REQ (R31, R293). -/
theorem step_wait_empty (hinq : s.inq = []) (hdue : s.termReq ≠ some 0) : step s = .next s.tick := by
  obtain ⟨readOn, echo, hread, hstep, -⟩ := step_wait hrun hwait
  rw [hstep, waitTurn_not_due _ hdue, hread.waits s.tick hinq]
  rfl

/-- A wait that the host never ends does not change the state. -/
theorem run_wait_forever (hinq : s.inq = []) (hnever : s.termReq = none) (k : Nat) :
    Host.Core.run Sys2Proof.core k s = .next s := by
  have htick : s.tick = s := by rw [State.tick, hnever, Option.map_none, ← hnever]
  have hstep : step s = .next s := by rw [step_wait_empty hrun hwait hinq (by simp [hnever]), htick]
  induction k with
  | zero => rfl
  | succ k ih => rw [core_run_succ hstep, ih]

/-- With a byte to read the wait completes, and IN echoes it (R192, R195). -/
theorem step_wait_takes {b : Byte} {rest : List Byte} (hinq : s.inq = b :: rest) (hdue : s.termReq ≠ some 0) :
    ∃ t, step s = .next t ∧ t.service = .idle ∧ RegsAfter s t .r0 (zextSpec b) ∧
      t.cc = (if b = 0 then .zero else .positive) ∧ t.inq = rest ∧ t.pc = s.pc ∧ MemSame s t ∧
      t.out = s.out ++ (if s.service = .inWait then [b] else []) := by
  obtain ⟨readOn, echo, hread, hstep, hecho⟩ := step_wait hrun hwait
  rw [waitTurn_not_due _ hdue, hread.takes s.tick b rest hinq, zext16_eq_zextSpec] at hstep
  refine ⟨_, hstep, rfl, State.setReg_regsAfter s .r0 (zextSpec b), ?_, rfl, rfl, fun _ => rfl, ?_⟩
  · rw [← flagOf_zext16, zext16_eq_zextSpec]
    rfl
  · rw [← hecho]
    rfl

end

/-- TERM_REQ ends a wait at its moment (R245), by induction on the moments left. -/
theorem run_wait_terminated (n : Nat) {s : State} (hrun : s.run = .running)
    (hwait : s.service = .getcWait ∨ s.service = .inWait) (hinq : s.inq = []) (hdue : s.termReq = some n) :
    Host.Core.run Sys2Proof.core (n + 1) s = .next { s with run := .terminated, termReq := some 0 } := by
  induction n generalizing s with
  | zero =>
    obtain ⟨readOn, echo, -, hstep, -⟩ := step_wait hrun hwait
    rw [core_run_succ hstep, waitTurn_due _ hdue, ← hdue]
    rfl
  | succ n ih =>
    have htick : s.tick.termReq = some n := by rw [State.tick_termReq, hdue]; rfl
    rw [core_run_succ (step_wait_empty hrun hwait hinq (by simp [hdue])), ih (s := s.tick) hrun hwait hinq htick]
    rfl

/-- Settles O51: a moment of the wait brings TERM_REQ nearer, or lands it, or takes the byte. -/
theorem inputWaitHolds : Obligations.InputWaitHolds := fun _ hrun hwait =>
  ⟨run_wait_forever hrun hwait, fun n => run_wait_terminated n hrun hwait, fun _ _ => step_wait_takes hrun hwait⟩

end Sys2Proof.Machine
end

section
namespace Sys2Proof.Machine

open Sys2Proof.Claims

/-! PUTS and PUTSP (R194, R196). -/

/-- The high byte is bits 15:8 (R8). -/
theorem highByte_eq_highSpec (w : Word) : highByte w = highSpec w := by
  have hlt : fld w 15 8 < 2 ^ 8 := Nat.mod_lt _ (by decide)
  refine bits_of_fld (lo := 8) (n := 7) ?_
  rw [highSpec, BitVec.toNat_ofNat, Nat.mod_eq_of_lt hlt]

theorem putsBytes_eq (w : Word) : putsBytes w = [lowSpec w] := by rw [putsBytes, lowByte_eq_lowSpec]

theorem putspBytes_eq (w : Word) :
    putspBytes w = if highSpec w ≠ 0 then [lowSpec w, highSpec w] else [lowSpec w] := by
  rw [putspBytes, lowByte_eq_lowSpec, highByte_eq_highSpec, ite_not]

/-- The words of a string, by the bytes of each in turn. -/
theorem wholeString_of_stringAt (f : Word → List Byte) {s : State} {p : Word} {n : Nat} (h : StringAt s p n) :
    wholeString f s p = some ((List.range n).flatMap fun k => f (s.peek (p + BitVec.ofNat 16 k))) := by
  obtain ⟨hlt, hzero, hnonzero⟩ := h
  exact walkString_found f s hlt hzero hnonzero

/-- The link leaves R0 alone, so the services take the old R0 as their argument. -/
theorem State.trapEntry_r0 (s : State) : s.trapEntry.reg .r0 = s.reg .r0 := by
  rw [State.reg_trapEntry, if_neg (by decide)]

theorem exec_puts_of_string {s : State} {bs : List Byte} (h : wholeString putsBytes s (s.reg .r0) = some bs) :
    exec .puts s = .next (s.trapEntry.emit bs) := by
  rw [← s.trapEntry_r0, ← wholeString_congr putsBytes s.trapEntry_mem] at h
  change Host.Outcome.next (servicePuts s.trapEntry) = _
  rw [servicePuts, h]
  rfl

theorem exec_putsp_of_string {s : State} {bs : List Byte} (h : wholeString putspBytes s (s.reg .r0) = some bs) :
    exec .putsp s = .next (s.trapEntry.emit bs) := by
  rw [← s.trapEntry_r0, ← wholeString_congr putspBytes s.trapEntry_mem] at h
  change Host.Outcome.next (servicePutsp s.trapEntry) = _
  rw [servicePutsp, h]
  rfl

/-- Settles O38: the walk finds the string, and one byte a word is emitted after the link. -/
theorem putsEmitsString : Obligations.PutsEmitsString := by
  intro s n hstring
  refine ⟨_, exec_puts_of_string (wholeString_of_stringAt putsBytes hstring), ?_⟩
  simp only [putsBytes_eq, ← List.map_eq_flatMap]
  exact s.trapEntry_emit_linkAndEmit _

/-- Settles O40: the walk finds the string, and one or two bytes a word are emitted after the link. -/
theorem putspEmitsPackedString : Obligations.PutspEmitsPackedString := by
  intro s n hstring
  refine ⟨_, exec_putsp_of_string (wholeString_of_stringAt putspBytes hstring), ?_⟩
  simp only [putspBytes_eq]
  exact s.trapEntry_emit_linkAndEmit _

/-! A memory without a zero word (R194, R196): the loop goes on for ever. -/

/-- The state after `k` turns of a string loop that started at `p` in `s`. -/
def loopState (f : Word → List Byte) (again : Word → ServiceState) (p : Word) (s : State) (k : Nat) : State :=
  { s.emit ((List.range k).flatMap fun j => f (s.peek (p + BitVec.ofNat 16 j))) with
    service := again (p + BitVec.ofNat 16 k) }

/-- Before its first turn nothing is emitted. -/
theorem loopState_zero (f : Word → List Byte) (again : Word → ServiceState) (p : Word) (s : State) :
    loopState f again p s 0 = { s with service := again p } := by
  simp [loopState]

/-- A turn emits the next word's bytes and moves on. -/
theorem stringTurn_loopState (f : Word → List Byte) (again : Word → ServiceState) (p : Word) {s : State}
    (hnonzero : ∀ a, s.peek a ≠ 0) (k : Nat) :
    stringTurn f again (p + BitVec.ofNat 16 k) (loopState f again p s k) = loopState f again p s (k + 1) := by
  have hnext : p + BitVec.ofNat 16 k + 1 = p + BitVec.ofNat 16 (k + 1) := by
    rw [BitVec.ofNat_add, ← BitVec.add_assoc]
    rfl
  rw [stringTurn_nonzero (s := loopState f again p s k) f again (hnonzero _), hnext]
  simp only [loopState, State.emit, List.range_succ, List.flatMap_append, List.flatMap_singleton, ← List.append_assoc]
  rfl

/-- A run along a chain of steps. -/
theorem run_of_chain {x : Nat → State} (h : ∀ k, step (x k) = .next (x (k + 1))) (k : Nat) (j : Nat) :
    Host.Core.run Sys2Proof.core k (x j) = .next (x (j + k)) := by
  induction k generalizing j with
  | zero => rfl
  | succ k ih => rw [core_run_succ (h j), ih, Nat.add_right_comm, Nat.add_assoc]

/-- `again` marks a string loop whose turns emit `f` of each word. -/
def LoopsWith (f : Word → List Byte) (again : Word → ServiceState) : Prop :=
  ∀ (p : Word) (s : State), s.service = again p → s.service ≠ .idle ∧ serviceTurn s = stringTurn f again p s

theorem putsLoop_loopsWith : LoopsWith putsBytes .putsLoop := fun p s hs =>
  ⟨by simp [hs], serviceTurn_putsLoop hs⟩

theorem putspLoop_loopsWith : LoopsWith putspBytes .putspLoop := fun p s hs =>
  ⟨by simp [hs], serviceTurn_putspLoop hs⟩

/-- Every further step of an endless loop is a turn, and none is the last. -/
theorem LoopsWith.run {f : Word → List Byte} {again : Word → ServiceState} (hloop : LoopsWith f again) (p : Word)
    {s : State} (hnonzero : ∀ a, s.peek a ≠ 0) (hrun : s.run = .running) (k : Nat) :
    Host.Core.run Sys2Proof.core k { s with service := again p } = .next (loopState f again p s k) ∧
      (loopState f again p s k).service ≠ .idle := by
  have hbusy : ∀ k, (loopState f again p s k).service ≠ .idle := fun k => (hloop _ _ rfl).1
  have hstep : ∀ k, step (loopState f again p s k) = .next (loopState f again p s (k + 1)) := fun k => by
    rw [step_service (s := loopState f again p s k) hrun (hbusy k), (hloop _ _ rfl).2,
      stringTurn_loopState f again p hnonzero]
  have hchain := run_of_chain hstep k 0
  rw [loopState_zero, Nat.zero_add] at hchain
  exact ⟨hchain, hbusy k⟩

theorem exec_puts_endless {s : State} (hnonzero : ∀ a, s.peek a ≠ 0) :
    exec .puts s = .next { s.trapEntry with service := .putsLoop (s.reg .r0) } := by
  rw [← s.trapEntry_r0]
  change Host.Outcome.next (servicePuts s.trapEntry) = _
  rw [servicePuts, wholeString, walkString_eq_none putsBytes (s := s.trapEntry) hnonzero]

theorem exec_putsp_endless {s : State} (hnonzero : ∀ a, s.peek a ≠ 0) :
    exec .putsp s = .next { s.trapEntry with service := .putspLoop (s.reg .r0) } := by
  rw [← s.trapEntry_r0]
  change Host.Outcome.next (servicePutsp s.trapEntry) = _
  rw [servicePutsp, wholeString, walkString_eq_none putspBytes (s := s.trapEntry) hnonzero]

/-- PUTSP emits at least one byte a word. -/
theorem length_flatMap_putspBytes (g : Nat → Word) (k : Nat) :
    k ≤ ((List.range k).flatMap fun j => putspBytes (g j)).length := by
  have hone : ∀ w, 1 ≤ (putspBytes w).length := fun w => by
    rw [putspBytes]
    split <;> simp
  induction k with
  | zero => exact Nat.zero_le _
  | succ k ih =>
    have := hone (g k)
    simp only [List.range_succ, List.flatMap_append, List.flatMap_singleton, List.length_append]
    omega

/-- Settles O42: after the link, `k` steps are `k` turns of the loop. -/
theorem endlessStringNeverCompletes : Obligations.EndlessStringNeverCompletes := by
  intro s hnonzero hrun
  have hnonzero' : ∀ a, s.trapEntry.peek a ≠ 0 := hnonzero
  refine ⟨⟨_, exec_puts_endless hnonzero, s.setReg_regsAfter .r7 s.pc, rfl, fun k => ?_⟩,
    ⟨_, exec_putsp_endless hnonzero, s.setReg_regsAfter .r7 s.pc, rfl, fun k => ?_⟩⟩
  · obtain ⟨hrun', hbusy⟩ := putsLoop_loopsWith.run (s.reg .r0) hnonzero' hrun k
    refine ⟨_, hrun', hrun, hbusy, fun _ => rfl, ?_⟩
    simp only [loopState, putsBytes_eq, ← List.map_eq_flatMap]
    rfl
  · obtain ⟨hrun', hbusy⟩ := putspLoop_loopsWith.run (s.reg .r0) hnonzero' hrun k
    refine ⟨_, hrun', hrun, hbusy, fun _ => rfl, ?_⟩
    have hlen := length_flatMap_putspBytes (fun j => s.peek (s.reg .r0 + BitVec.ofNat 16 j)) k
    simp only [loopState, State.emit_out, State.trapEntry_out, State.peek_trapEntry, List.length_append]
    omega

end Sys2Proof.Machine
end

section
namespace Sys2Proof.Machine

open Sys2Proof.Claims

/-! Which registers, flags, words and pc each instruction writes (R21, R23, R26, R51). -/

/-- What the statement of the writers says of an instruction that takes `s` to `t` (R21). -/
def WritesAsListed (i : Instr) (s t : State) : Prop :=
  (∀ r, t.reg r ≠ s.reg r → resultReg i s = some r ∨ (r = .r7 ∧ linksR7 i)) ∧
  (linksR7 i → t.reg .r7 = s.pc) ∧
  (∀ d, resultReg i s = some d → t.cc = flagSpec (t.reg d)) ∧
  (resultReg i s = none → t.cc = s.cc)

/-- A result register, after reads that change no register. -/
theorem WritesAsListed.of_result {i : Instr} {s m : State} {d : Reg} (v : Word) (hregs : RegsSame s m)
    (hresult : resultReg i s = some d) (hlink : ¬ linksR7 i) : WritesAsListed i s (m.writeResult d v) := by
  obtain ⟨⟨hdst, hother⟩, hcc, -⟩ := m.writeResult_resultOnly d v
  refine ⟨fun r hr => .inl ?_, fun h => absurd h hlink, fun d' hd' => ?_, fun h => ?_⟩
  · by_cases hrd : r = d
    · rw [hresult, hrd]
    · exact absurd ((hother r hrd).trans (hregs r)) hr
  · obtain rfl := Option.some.inj (hresult.symm.trans hd')
    rw [hcc, hdst]
  · rw [hresult] at h
    nomatch h

/-- No register. -/
theorem WritesAsListed.of_nothing {i : Instr} {s t : State} (hregs : RegsSame s t) (hcc : t.cc = s.cc)
    (hresult : resultReg i s = none) (hlink : ¬ linksR7 i) : WritesAsListed i s t := by
  refine ⟨fun r hr => absurd (hregs r) hr, fun h => absurd h hlink, fun d hd => ?_, fun _ => hcc⟩
  rw [hresult] at hd
  nomatch hd

/-- The link alone. -/
theorem WritesAsListed.of_link {i : Instr} {s t : State} (hregs : RegsAfter s t .r7 s.pc) (hcc : t.cc = s.cc)
    (hresult : resultReg i s = none) (hlink : linksR7 i) : WritesAsListed i s t := by
  obtain ⟨h7, hother⟩ := hregs
  refine ⟨fun r hr => .inr ⟨?_, hlink⟩, fun _ => h7, fun d hd => ?_, fun _ => hcc⟩
  · by_contra hne
    exact hr (hother r hne)
  · rw [hresult] at hd
    nomatch hd

/-- The link, and R0 with its flag when GETC or IN takes a byte. -/
theorem WritesAsListed.of_service {i : Instr} {s : State} (v : BitVec 8)
    (hresult : resultReg i s = resultReg (.trap v) s) (hlink : linksR7 i) :
    WritesAsListed i s (runService v s.trapEntry) := by
  obtain ⟨h7, hother⟩ := s.setReg_regsAfter .r7 s.pc
  rcases runService_flag v s.trapEntry with ⟨htakes, hflag⟩ | ⟨hnot, hregs, hcc⟩
  · obtain ⟨-, -, hkeeps, -⟩ := runService_effect v s.trapEntry
    have hr0 : resultReg i s = some .r0 := hresult.trans (if_pos htakes)
    refine ⟨fun r hr => ?_, fun _ => (hkeeps .r7 (by decide)).trans h7, fun d hd => ?_, fun h => ?_⟩
    · by_cases h0 : r = .r0
      · exact .inl (h0 ▸ hr0)
      · refine .inr ⟨?_, hlink⟩
        by_contra hne
        exact hr ((hkeeps r h0).trans (hother r hne))
    · obtain rfl := Option.some.inj (hr0.symm.trans hd)
      rw [hflag, flagOf_eq_flagSpec]
    · rw [hr0] at h
      nomatch h
  · have hsame : RegsSame s.trapEntry (runService v s.trapEntry) := State.reg_congr hregs
    have hlinked : RegsAfter s (runService v s.trapEntry) .r7 s.pc :=
      ⟨(hsame .r7).trans h7, fun r hne => (hsame r).trans (hother r hne)⟩
    exact .of_link hlinked hcc (hresult.trans (if_neg hnot)) hlink

/-- Settles O53: each of the six effects writes the registers and the flag that are listed for it. -/
theorem registerAndFlagWriters : Obligations.RegisterAndFlagWriters := by
  intro i s t h
  change WritesAsListed i s t
  cases effect_of_exec h with
  | result v hm hresult hlink => exact .of_result v hm.onlyReads.regsSame hresult hlink
  | store v hm _ hresult hlink => exact .of_nothing hm.onlyReads.regsSame hm.onlyReads.cc hresult hlink
  | jump v hi => obtain ⟨c, o, rfl⟩ | ⟨b, rfl⟩ := hi <;> exact .of_nothing (s.setPc_regsSame v) rfl rfl id
  | call v hi => obtain ⟨o, rfl⟩ | ⟨b, rfl⟩ := hi <;> exact .of_link (s.setReg_regsAfter .r7 s.pc) rfl rfl trivial
  | service v hresult hlink => exact .of_service v hresult hlink
  | abort op hi => obtain ⟨rfl, rfl⟩ | ⟨rfl, rfl⟩ := hi <;> exact .of_nothing (fun _ => rfl) rfl rfl id

/-- Reads change no word but KBSR and KBDR, and those only by reading KBSR (R56, R58). -/
theorem Reads.peek_changed {s m : State} {as : List Word} (h : Reads s as m) {a : Word} (hne : m.peek a ≠ s.peek a) :
    (a = 0xFE00 ∨ a = 0xFE02) ∧ 0xFE00 ∈ as := by
  induction h with
  | none => exact absurd rfl hne
  | @read s m as b _ ih =>
    by_cases hsame : (s.memRead b).2.peek a = s.peek a
    · obtain ⟨ha, hin⟩ := ih (hsame ▸ hne)
      exact ⟨ha, List.mem_cons_of_mem b hin⟩
    · have hb : b = 0xFE00 := by
        by_contra hb
        exact hsame (by rw [State.memRead_snd, State.afterRead_plain s hb])
      refine ⟨?_, hb ▸ List.mem_cons_self⟩
      by_contra ha
      obtain ⟨hs, hd⟩ := not_or.mp ha
      exact hsame (s.afterRead_peek b hs hd)

/-- Settles O55: a word is changed by a store at its address, or by the poll of a read before it. -/
theorem memoryWriters : Obligations.MemoryWriters := by
  intro i s t a h hne
  cases effect_of_exec h with
  | result v hm => exact .inr (hm.peek_changed hne)
  | @store m b v hm haddr =>
    by_cases hab : a = b
    · exact .inl (hab ▸ haddr)
    · rw [State.peek_memWrite, if_neg hab] at hne
      exact .inr (hm.peek_changed hne)
  | service v =>
    obtain ⟨-, hmem, -⟩ := runService_effect v s.trapEntry
    exact absurd (State.peek_congr hmem a) hne
  | jump | call | abort => exact absurd rfl hne

/-- Settles O56: of the six effects, two write pc. -/
theorem onlyControlTransferWritesPc : Obligations.OnlyControlTransferWritesPc := by
  intro i s t h hne
  cases effect_of_exec h with
  | result v hm => exact absurd hm.onlyReads.pc hne
  | store v hm => exact absurd hm.onlyReads.pc hne
  | service v =>
    obtain ⟨hpc, -⟩ := runService_effect v s.trapEntry
    exact absurd hpc hne
  | abort => exact absurd rfl hne
  | jump v hi =>
    rcases hi with hbr | hjmp
    · exact .inl hbr
    · exact .inr (.inl hjmp)
  | call v hi => exact .inr (.inr hi)

end Sys2Proof.Machine
end

section
namespace Sys2Proof.Machine

/-! Only BR reads cc (R26). -/

/-- The state with another flag. -/
def State.withCc (c : Cond) (s : State) : State := { s with cc := c }

theorem State.withCc_pc (c : Cond) (s : State) : (s.withCc c).pc = s.pc := rfl

theorem State.withCc_reg (c : Cond) (s : State) (r : Reg) : (s.withCc c).reg r = s.reg r := rfl

/-- A result overwrites the flag. -/
theorem State.writeResult_withCc (c : Cond) (s : State) (d : Reg) (v : Word) :
    (s.withCc c).writeResult d v = s.writeResult d v := rfl

/-- The two states differ in cc at most. -/
def SameButCc (t u : State) : Prop := ∃ c, u = t.withCc c

theorem SameButCc.refl (t : State) : SameButCc t t := ⟨t.cc, rfl⟩

theorem SameButCc.eq {t u : State} (h : SameButCc t u) : u = { t with cc := u.cc } := by
  obtain ⟨c, rfl⟩ := h
  rfl

/-- A poll does not look at cc. -/
theorem State.kbPoll_withCc (c : Cond) (s : State) : (s.withCc c).kbPoll = s.kbPoll.withCc c := by
  unfold State.kbPoll State.inPoll State.withCc
  cases s.inq with
  | nil => rfl
  | cons b rest =>
    dsimp only
    cases Config.avail s.polls <;> rfl

theorem State.afterRead_withCc (a : Word) (c : Cond) (s : State) :
    (s.withCc c).afterRead a = (s.afterRead a).withCc c := by
  unfold State.afterRead
  split
  · exact s.kbPoll_withCc c
  · rfl

/-- A MemRead gives the same word, and leaves the same state but for cc. -/
theorem State.memRead_withCc (a : Word) (c : Cond) (s : State) :
    (s.withCc c).memRead a = ((s.memRead a).1, (s.memRead a).2.withCc c) := by
  rw [State.memRead, State.afterRead_withCc]
  rfl

/-- A read of a character overwrites cc, or waits and leaves it. -/
theorem ReadsChar.sameButCc {readOn : State → State} {w : ServiceState} {echo : Byte → List Byte}
    (hread : ReadsChar readOn w echo) (c : Cond) (s : State) : SameButCc (readOn s) (readOn (s.withCc c)) := by
  cases hinq : s.inq with
  | nil =>
    rw [hread.waits s hinq, hread.waits (s.withCc c) hinq]
    exact ⟨c, rfl⟩
  | cons b rest =>
    rw [hread.takes s b rest hinq, hread.takes (s.withCc c) b rest hinq]
    exact ⟨flagOf (zext16 b), rfl⟩

/-- Neither string service looks at cc. -/
theorem servicePuts_withCc (c : Cond) (s : State) : servicePuts (s.withCc c) = (servicePuts s).withCc c := by
  rw [servicePuts, s.withCc_reg, wholeString_congr putsBytes (s := s) (t := s.withCc c) rfl, servicePuts]
  cases wholeString putsBytes s (s.reg .r0) <;> rfl

theorem servicePutsp_withCc (c : Cond) (s : State) : servicePutsp (s.withCc c) = (servicePutsp s).withCc c := by
  rw [servicePutsp, s.withCc_reg, wholeString_congr putspBytes (s := s) (t := s.withCc c) rfl, servicePutsp]
  cases wholeString putspBytes s (s.reg .r0) <;> rfl

theorem runService_sameButCc (v : BitVec 8) (c : Cond) (s : State) :
    SameButCc (runService v s) (runService v (s.withCc c)) := by
  unfold runService
  cases serviceOf v with
  | none => exact ⟨c, rfl⟩
  | some x =>
    cases x with
    | getc => exact serviceGetc_readsChar.sameButCc c s
    | out | halt => exact ⟨c, rfl⟩
    | puts => exact ⟨c, servicePuts_withCc c s⟩
    | in_ => exact serviceInRead_readsChar.sameButCc c (s.emit Config.inPrompt)
    | putsp => exact ⟨c, servicePutsp_withCc c s⟩

/-- A load overwrites cc, so the new flag makes no difference at all. -/
theorem exec_ld_withCc (d : Reg) (o : BitVec 9) (c : Cond) (s : State) :
    exec (.ld d o) (s.withCc c) = exec (.ld d o) s := by
  simp only [exec_ld, State.withCc_pc, State.memRead_withCc, State.writeResult_withCc]

theorem exec_ldr_withCc (d b : Reg) (o : BitVec 6) (c : Cond) (s : State) :
    exec (.ldr d b o) (s.withCc c) = exec (.ldr d b o) s := by
  simp only [exec_ldr, State.withCc_reg, State.memRead_withCc, State.writeResult_withCc]

theorem exec_ldi_withCc (d : Reg) (o : BitVec 9) (c : Cond) (s : State) :
    exec (.ldi d o) (s.withCc c) = exec (.ldi d o) s := by
  simp only [exec_ldi, State.withCc_pc, State.memRead_withCc, State.writeResult_withCc]

theorem exec_sti_withCc (r : Reg) (o : BitVec 9) (c : Cond) (s : State) :
    ∃ t, exec (.sti r o) s = .next t ∧ exec (.sti r o) (s.withCc c) = .next (t.withCc c) := by
  refine ⟨_, exec_sti r o s, ?_⟩
  simp only [exec_sti, State.withCc_pc, State.withCc_reg, State.memRead_withCc]
  rfl

/-- Every instruction but BR does the same to everything but cc. -/
theorem exec_sameButCc {i : Instr} (hbr : ∀ m o, i ≠ .br m o) (c : Cond) (s : State) :
    ∃ t u, exec i s = .next t ∧ exec i (s.withCc c) = .next u ∧ SameButCc t u := by
  cases i with
  | br m o => exact absurd rfl (hbr m o)
  | addR | addI | andR | andI | not | lea => exact ⟨_, _, rfl, rfl, .refl _⟩
  | jmp | jsr | jsrr | st | str | rti | res => exact ⟨_, _, rfl, rfl, c, rfl⟩
  | ld d o => exact ⟨_, _, rfl, exec_ld_withCc d o c s, .refl _⟩
  | ldr d b o => exact ⟨_, _, rfl, exec_ldr_withCc d b o c s, .refl _⟩
  | ldi d o => exact ⟨_, _, rfl, exec_ldi_withCc d o c s, .refl _⟩
  | sti r o =>
    obtain ⟨t, ht, hu⟩ := exec_sti_withCc r o c s
    exact ⟨t, _, ht, hu, c, rfl⟩
  | trap v => exact ⟨_, _, rfl, rfl, runService_sameButCc v c s.trapEntry⟩
  | getc => exact ⟨_, _, rfl, rfl, runService_sameButCc 0x20 c s.trapEntry⟩
  | out => exact ⟨_, _, rfl, rfl, runService_sameButCc 0x21 c s.trapEntry⟩
  | puts => exact ⟨_, _, rfl, rfl, runService_sameButCc 0x22 c s.trapEntry⟩
  | in_ => exact ⟨_, _, rfl, rfl, runService_sameButCc 0x23 c s.trapEntry⟩
  | putsp => exact ⟨_, _, rfl, rfl, runService_sameButCc 0x24 c s.trapEntry⟩
  | halt => exact ⟨_, _, rfl, rfl, runService_sameButCc 0x25 c s.trapEntry⟩

/-- Settles O54: the two answers are those of `exec_sameButCc`. -/
theorem onlyBranchReadsFlag : Obligations.OnlyBranchReadsFlag := by
  intro i c s t u hbr ht hu
  obtain ⟨t', u', ht', hu', hsame⟩ := exec_sameButCc hbr c s
  obtain rfl : t' = t := Host.Outcome.next.inj (ht'.symm.trans ht)
  obtain rfl : u' = u := Host.Outcome.next.inj (hu'.symm.trans hu)
  exact hsame.eq

end Sys2Proof.Machine
end

section
namespace Sys2Proof.Machine

open Sys2Proof.Claims

/-! NOT, BR and JSRR (R126, R141, R144). -/

theorem decode_not {w : Word} (hop : fld w 15 12 = 9) : decode w = .not (fieldDst w) (fieldMid w) := by
  rw [decode, opcode_of_fld (o := .not) hop]

theorem decode_br {w : Word} (hop : fld w 15 12 = 0) : decode w = .br (bits w 9 3) (bits w 0 9) := by
  rw [decode, opcode_of_fld (o := .br) hop]

theorem bit11_ne_one {w : Word} (h : fld w 11 11 = 0) : bits w 11 1 ≠ 1#1 := by
  rw [bits_of_fld (n := 0) (v := 0#1) h]
  decide

theorem exec_not (d a : Reg) (s : State) : exec (.not d a) s = .next (s.writeResult d (~~~ s.reg a)) := rfl

/-- A branch writes pc, with the old pc where it is not taken. -/
theorem exec_br (c : BitVec 3) (o : BitVec 9) (s : State) :
    exec (.br c o) s = .next (s.setPc (if branchTaken c s.cc then s.pc + sextSpec o else s.pc)) := by
  rw [← State.pcRel9_eq, apply_ite (s.setPc ·)]
  rfl

/-- The target is read from the register file that holds the link already (D15). -/
theorem exec_jsrr (b : Reg) (s : State) :
    exec (.jsrr b) s = .next ((s.setReg .r7 s.pc).setPc (if b = .r7 then s.pc else s.reg b)) := by
  rw [← State.reg_setReg]
  rfl

/-- Settles O16: the source's complement is written as a result. -/
theorem notRegister : Obligations.NotRegister := by
  intro d a
  refine ⟨fun w hop hd ha => ?_, fun s => ⟨_, exec_not d a s, s.writeResult_resultOnly d _⟩⟩
  rw [decode_not hop, fieldDst_of_fld hd, fieldMid_of_fld ha]

/-- Settles O17: the two clauses are the two cases of the branch, and only pc is written. -/
theorem branchOnFlag : Obligations.BranchOnFlag := by
  intro c o
  refine ⟨fun w hop hc ho => ?_, fun s => ⟨_, exec_br c o s, fun htaken => ?_, fun hnot => ?_,
    s.setPc_regsSame _, s.setPc_cc _, s.setPc_restSame _⟩⟩
  · rw [decode_br hop, bits_of_fld (lo := 9) (n := 2) hc, offset9_of_fld ho]
  · rw [State.setPc_pc, if_pos ((branchTaken_iff c s.cc).mpr htaken)]
  · rw [State.setPc_pc, if_neg (mt (branchTaken_iff c s.cc).mp hnot)]

/-- Settles O20: instr[11] = 0 picks the register form, and `exec` writes the link first and then pc. -/
theorem jsrrLinksAndJumps : Obligations.JsrrLinksAndJumps := by
  intro b
  refine ⟨fun w hop hform hb => ?_, fun s => ⟨_, exec_jsrr b s, ?_⟩⟩
  · rw [decode_jsr_or_jsrr hop, if_neg (bit11_ne_one hform), fieldMid_of_fld hb]
  · exact ⟨s.setReg_regsAfter .r7 s.pc, State.setPc_pc _ _, s.setReg_cc .r7 s.pc, s.setReg_restSame .r7 s.pc⟩

/-- Settles O32: the store changes no register, so the load has the same address, and no poll comes between. -/
theorem storeThenLoad : Obligations.StoreThenLoad := by
  intro r d b o s t haddr hstore
  obtain rfl := Host.Outcome.next.inj ((exec_str r b o s).symm.trans hstore)
  obtain ⟨⟨hdst, -⟩, hcc, -⟩ := (State.memWrite (s.reg b + sextSpec o) (s.reg r) s).writeResult_resultOnly d (s.reg r)
  refine ⟨_, ?_, hdst, hcc⟩
  rw [exec_ldr, State.reg_memWrite, State.memRead_fst, State.memRead_snd, State.afterRead_plain _ haddr,
    State.peek_memWrite, if_pos rfl]

end Sys2Proof.Machine
end

section
namespace Sys2Proof.Machine

/-! The image loader and boot (R281 to R284). -/

/-- Settles O58: the loader's law gives memory, and everything else is as before. -/
theorem loaderPutsImageWords : Obligations.LoaderPutsImageWords := fun bytes s =>
  ⟨loadImage_peek bytes s, (loadImage_only_memory bytes s).frame⟩

/-- One image that fails to load fails them all. -/
theorem mapM_id_of_none_mem {args : List (Option (List Byte))} (h : none ∈ args) : args.mapM id = none := by
  induction args with
  | nil => nomatch h
  | cons a args ih =>
    rw [List.mapM_cons]
    cases a with
    | none => rfl
    | some i =>
      rw [ih ((List.mem_cons.mp h).resolve_left nofun)]
      rfl

/-- Settles O60: boot answers `none` at once, or because an argument's image does. -/
theorem noStartWithoutImages : Obligations.NoStartWithoutImages := by
  rintro args (rfl | hnone)
  · rfl
  · rw [boot, mapM_id_of_none_mem hnone, Option.map_none, ite_self]

end Sys2Proof.Machine
end
